-- ==== Sys2Proof/Word.lean ====
section
/-! DEFINITION. The words of the LS-8: bytes and register indices (spec/00_scope.md R4, R5). The program counter's word
stands in Sys2Proof/Config.lean, beside the width the spec decides for it. -/

namespace Sys2Proof

/-- A byte: 8 bits, unsigned (R5). Registers, memory cells, FL and operand bytes are bytes. -/
abbrev Byte := BitVec 8

/-- A register index 0 to 7 (R11, R53). An operand byte above 7 is no register index: decoding rejects it
before an instruction exists, so the bound stands in the type. -/
abbrev Reg := Fin 8

end Sys2Proof
end

