-- ==== Sys2Proof/Config.lean ====
section
/-! DEFINITION. The machine's configuration: what is fixed for it and does not change as it runs (spec/00_scope.md R4), each
under a name of its own that a claim can use. Every parameter R4 marks as a decision stands here: the width of `pc`, `OPC`,
the bit positions of FL, the reset values, the status numbers. Beside them stand the enumerations they speak of: the 21
mnemonics with their formats, and the run states. There is no free value: no rule leaves a result undefined after which
the machine goes on. -/

namespace Sys2Proof

/-! ## Dimensions and reset values -/

/-- `MEM_SIZE`: the number of memory cells (R4, R30). -/
abbrev Config.memSize : Nat := 256

/-- `PC_WIDTH`: the width of the program counter, decision D3 (R4, R14; log entry 4). -/
abbrev Config.pcWidth : Nat := 9

/-- The program counter's word: reachable values 0 to 256 (R14). -/
abbrev Pc := BitVec Config.pcWidth

/-- Reset value of every general register. R7: implied by the source; R0 to R6: decision D8 (R26; log entry 3). -/
def Config.resetReg : Byte := 0

/-- Reset value of the program counter (R26). -/
def Config.resetPc : Pc := 0

/-- Reset value of FL, decision D8 (R26; log entry 3). -/
def Config.resetFl : Byte := 0

/-! ## The flags register: bit positions, decision D2 (R4, R17; log entry 14) -/

/-- The bit of FL that holds E, Equal. -/
abbrev Config.flEBit : Nat := 0

/-- The bit of FL that holds G, Greater-than. -/
abbrev Config.flGBit : Nat := 1

/-- The bit of FL that holds L, Less-than. -/
abbrev Config.flLBit : Nat := 2

/-! ## The run states -/

/-- The run state (R20). Only `running` lets a tick execute (R71). -/
inductive Machine.Status where
  /-- RUNNING: the next tick fetches and executes an instruction. -/
  | running
  /-- HALTED: the normal stop, by HLT (R145, R160). -/
  | halted
  /-- FAULT_DECODE: decode error (R151). -/
  | faultDecode
  /-- FAULT_ARITH: arithmetic error (R152). -/
  | faultArith
  /-- FAULT_BOUNDS: memory-bounds error (R153). -/
  | faultBounds
  deriving DecidableEq, Repr

/-- Reset value of `status`, decision D8 (R4, R26; log entry 3). -/
def Config.resetStatus : Machine.Status := .running

/-- The numbers of the run states and fault kinds: arbitrary, decision D10 (R4, R20; log entry 15). -/
def Config.statusCode : Machine.Status → Nat
  | .running => 0
  | .halted => 1
  | .faultDecode => 2
  | .faultArith => 3
  | .faultBounds => 4

/-! ## The instructions: mnemonics, formats and opcode bytes -/

/-- The 21 mnemonics (R55), in the table's order: a closed enumeration (R58). -/
inductive Mnemonic where
  | ldi | ld | st | prn | pra | inc | dec | add | sub | mul | div | and | cmp
  | jmp | jeq | jne | push | pop | call | ret | hlt
  deriving DecidableEq, Repr

/-- Every mnemonic, once. -/
def Mnemonic.all : List Mnemonic :=
  [.ldi, .ld, .st, .prn, .pra, .inc, .dec, .add, .sub, .mul, .div, .and, .cmp,
   .jmp, .jeq, .jne, .push, .pop, .call, .ret, .hlt]

/-- The four formats (R52). -/
inductive Format where
  /-- one byte, no operand -/
  | z
  /-- two bytes, a register index -/
  | r
  /-- three bytes, two register indices -/
  | rr
  /-- three bytes, a register index and an immediate -/
  | ri
  deriving DecidableEq, Repr

/-- The format of each instruction (R52). -/
def Mnemonic.format : Mnemonic → Format
  | .ret | .hlt => .z
  | .prn | .pra | .inc | .dec | .jmp | .jeq | .jne | .push | .pop | .call => .r
  | .ld | .st | .add | .sub | .mul | .div | .and | .cmp => .rr
  | .ldi => .ri

/-- The number of operand bytes of a format (R52, R56 (b)). -/
def Format.operands : Format → Nat
  | .z => 0
  | .r => 1
  | .rr | .ri => 2

/-- `is_reg_a` of R80: byte 1 is a register index in formats R, RR and RI. -/
def Format.usesRegA : Format → Bool
  | .z => false
  | .r | .rr | .ri => true

/-- `is_reg_b` of R80: byte 2 is a register index in format RR only. -/
def Format.usesRegB : Format → Bool
  | .rr => true
  | .z | .r | .ri => false

/-- `OPC`, the opcode byte of each instruction: R55, decision D1 (UNVERIFIED: the spec gives these bytes from general
knowledge, K1; log entry 1). -/
def Config.opc : Mnemonic → Byte
  | .ldi => 0x99
  | .ld => 0x98
  | .st => 0x9A
  | .prn => 0x43
  | .pra => 0x42
  | .inc => 0x78
  | .dec => 0x79
  | .add => 0xA8
  | .sub => 0xA9
  | .mul => 0xAA
  | .div => 0xAB
  | .and => 0xB3
  | .cmp => 0xA0
  | .jmp => 0x50
  | .jeq => 0x51
  | .jne => 0x52
  | .push => 0x4D
  | .pop => 0x4C
  | .call => 0x48
  | .ret => 0x09
  | .hlt => 0x01

end Sys2Proof
end

