-- ==== Sys2Proof/Syntax.lean ====
section
/-! DEFINITION. The instructions of the LS-8, one constructor per row of spec/opcode_table.json. In a two-register form
the first register written is operand A (byte 1), the second operand B (byte 2) (R60). -/

namespace Sys2Proof

/-- The 21 instructions (R55): a closed enumeration, with no pseudo-instructions, hints or extensions (R58, R61). Every
term is well-formed: a register operand is an index 0 to 7 by its type (R53), an immediate is any byte (R54). -/
inductive Instr where
  /-- `LDI Rn, imm` (R90) -/
  | ldi (n : Reg) (imm : Byte)
  /-- `LD Ra, Rb` (R91) -/
  | ld (a b : Reg)
  /-- `ST Ra, Rb` (R92) -/
  | st (a b : Reg)
  /-- `PRN Rn` (R100) -/
  | prn (n : Reg)
  /-- `PRA Rn` (R101) -/
  | pra (n : Reg)
  /-- `INC Rn` (R106) -/
  | inc (n : Reg)
  /-- `DEC Rn` (R107) -/
  | dec (n : Reg)
  /-- `ADD Ra, Rb` (R108) -/
  | add (a b : Reg)
  /-- `SUB Ra, Rb` (R109) -/
  | sub (a b : Reg)
  /-- `MUL Ra, Rb` (R110) -/
  | mul (a b : Reg)
  /-- `DIV Ra, Rb` (R111) -/
  | div (a b : Reg)
  /-- `AND Ra, Rb` (R112) -/
  | and (a b : Reg)
  /-- `CMP Ra, Rb` (R120) -/
  | cmp (a b : Reg)
  /-- `JMP Rn` (R121) -/
  | jmp (n : Reg)
  /-- `JEQ Rn` (R122) -/
  | jeq (n : Reg)
  /-- `JNE Rn` (R123) -/
  | jne (n : Reg)
  /-- `PUSH Rn` (R134) -/
  | push (n : Reg)
  /-- `POP Rn` (R135) -/
  | pop (n : Reg)
  /-- `CALL Rn` (R136) -/
  | call (n : Reg)
  /-- `RET` (R137) -/
  | ret
  /-- `HLT` (R145) -/
  | hlt
  deriving DecidableEq, Repr

/-- The row of the opcode table an instruction belongs to. -/
def Instr.mnemonic : Instr → Mnemonic
  | .ldi _ _ => .ldi
  | .ld _ _ => .ld
  | .st _ _ => .st
  | .prn _ => .prn
  | .pra _ => .pra
  | .inc _ => .inc
  | .dec _ => .dec
  | .add _ _ => .add
  | .sub _ _ => .sub
  | .mul _ _ => .mul
  | .div _ _ => .div
  | .and _ _ => .and
  | .cmp _ _ => .cmp
  | .jmp _ => .jmp
  | .jeq _ => .jeq
  | .jne _ => .jne
  | .push _ => .push
  | .pop _ => .pop
  | .call _ => .call
  | .ret => .ret
  | .hlt => .hlt

end Sys2Proof
end

