-- ==== Sys2Proof/WellFormed.lean ====
section
/-! DEFINITION. The checks of the encoding: which opcode assignments are legal (spec/30_encoding.md R56), and which three
fetched bytes are an instruction under an assignment (R53, R57, R62). An `Instr` term needs no check of its own: its
register operands are indices 0 to 7 by their type. -/

namespace Sys2Proof

/-- R56 (a): the 21 opcode bytes are pairwise distinct. -/
abbrev OpcDistinct (o : Mnemonic → Byte) : Prop :=
  (Mnemonic.all.map o).Nodup

/-- R56 (b): the top two bits of each opcode byte are the instruction's operand count. -/
abbrev OpcCountsOperands (o : Mnemonic → Byte) : Prop :=
  ∀ m ∈ Mnemonic.all, (o m).toNat / 64 = m.format.operands

/-- R56 (c): `0b11111111` is not assigned. -/
abbrev OpcLeavesFF (o : Mnemonic → Byte) : Prop :=
  ∀ m ∈ Mnemonic.all, o m ≠ 0xFF

/-- The constraints any opcode assignment `OPC` must meet (R56). -/
abbrev OpcWellFormed (o : Mnemonic → Byte) : Prop :=
  OpcDistinct o ∧ OpcCountsOperands o ∧ OpcLeavesFF o

/-- The three bytes a tick fetches from `pc`, `pc + 1` and `pc + 2` (R5, R72). -/
structure Fetched where
  op : Byte
  a : Byte
  b : Byte
  deriving DecidableEq, Repr

/-- The opcode byte is one of the 21 (R57, R62). -/
abbrev Fetched.OpcodeKnown (o : Mnemonic → Byte) (f : Fetched) : Prop :=
  ∃ m ∈ Mnemonic.all, o m = f.op

/-- Where byte 1 is a register index, it is 0 to 7 (R53, R75). -/
abbrev Fetched.OperandAOk (o : Mnemonic → Byte) (f : Fetched) : Prop :=
  ∀ m ∈ Mnemonic.all, o m = f.op → m.format.usesRegA = true → f.a.toNat ≤ 7

/-- Where byte 2 is a register index, it is 0 to 7 (R53, R75). -/
abbrev Fetched.OperandBOk (o : Mnemonic → Byte) (f : Fetched) : Prop :=
  ∀ m ∈ Mnemonic.all, o m = f.op → m.format.usesRegB = true → f.b.toNat ≤ 7

/-- The three bytes are an instruction under the assignment `o`. -/
abbrev Fetched.WellFormed (o : Mnemonic → Byte) (f : Fetched) : Prop :=
  f.OpcodeKnown o ∧ f.OperandAOk o ∧ f.OperandBOk o

end Sys2Proof
end

