-- ==== Sys2Proof/Decode.lean ====
section
/-! DEFINITION. The opcode assignment, the decoder and the encoder (spec/30_encoding.md R50 to R62). The decoder is total on
any three bytes and rejects by name; both take the assignment `OPC` as an argument (R55: an open parameter under R56), and
`decode` and `encode` are they at the spec's default. -/

namespace Sys2Proof

/-- The assignment at which `decode`, `encode` and the machine stand: the configuration's `OPC` (R4, R55; log entry 1). -/
def opc : Mnemonic → Byte :=
  Config.opc

/-- `op[7:6]`, the operand count field of an opcode byte (R50, R51). -/
def operandCount (op : Byte) : Nat :=
  (op.extractLsb' 6 2).toNat

/-- Why three bytes are no instruction. Each becomes the decode error of R151 at its own address. -/
inductive DecodeError where
  /-- The opcode byte is none of the 21 (R57). Safe: the machine stops as the spec says. -/
  | unknownOpcode
  /-- Operand byte A is a register index above 7 (R53, decision D5). Safe. -/
  | operandA
  /-- Operand byte B is a register index above 7 (R53, decision D5). Safe. -/
  | operandB
  deriving DecidableEq, Repr

/-- The instruction whose opcode byte is exactly `op`: all eight bits are matched (R62). -/
def lookupOpcode (o : Mnemonic → Byte) (op : Byte) : Option Mnemonic :=
  Mnemonic.all.find? fun m => o m == op

/-- A register operand byte as a register index: its value, when 0 to 7 (R53). -/
def regIndex (v : Byte) : Option Reg :=
  if h : v.toNat < 8 then some ⟨v.toNat, h⟩ else none

/-- Operand A as a register index (R75). -/
def decodeRegA (f : Fetched) : Except DecodeError Reg :=
  match regIndex f.a with
  | some r => .ok r
  | none => .error .operandA

/-- Operand B as a register index (R75). -/
def decodeRegB (f : Fetched) : Except DecodeError Reg :=
  match regIndex f.b with
  | some r => .ok r
  | none => .error .operandB

/-- Format R (R52). -/
def decodeR (mk : Reg → Instr) (f : Fetched) : Except DecodeError Instr :=
  match decodeRegA f with
  | .ok n => .ok (mk n)
  | .error e => .error e

/-- Format RR (R52): operand A is checked before operand B (R75). -/
def decodeRR (mk : Reg → Reg → Instr) (f : Fetched) : Except DecodeError Instr :=
  match decodeRegA f with
  | .error e => .error e
  | .ok a =>
    match decodeRegB f with
    | .error e => .error e
    | .ok b => .ok (mk a b)

/-- The operands of a recognised opcode (R52, R75). Surplus bytes are not looked at (R62). -/
def decodeOperands (f : Fetched) : Mnemonic → Except DecodeError Instr
  | .ldi => decodeR (fun n => .ldi n f.b) f
  | .ld => decodeRR .ld f
  | .st => decodeRR .st f
  | .prn => decodeR .prn f
  | .pra => decodeR .pra f
  | .inc => decodeR .inc f
  | .dec => decodeR .dec f
  | .add => decodeRR .add f
  | .sub => decodeRR .sub f
  | .mul => decodeRR .mul f
  | .div => decodeRR .div f
  | .and => decodeRR .and f
  | .cmp => decodeRR .cmp f
  | .jmp => decodeR .jmp f
  | .jeq => decodeR .jeq f
  | .jne => decodeR .jne f
  | .push => decodeR .push f
  | .pop => decodeR .pop f
  | .call => decodeR .call f
  | .ret => .ok .ret
  | .hlt => .ok .hlt

/-- The decoder under an assignment: the opcode first (R74), then its operands (R75). -/
def decodeWith (o : Mnemonic → Byte) (f : Fetched) : Except DecodeError Instr :=
  match lookupOpcode o f.op with
  | none => .error .unknownOpcode
  | some m => decodeOperands f m

/-- The decoder at the spec's assignment. -/
def decode (f : Fetched) : Except DecodeError Instr :=
  decodeWith opc f

/-- A register index as its operand byte: bits 7 to 3 zero (R53). -/
def regByte (r : Reg) : Byte :=
  BitVec.ofNat 8 r.val

/-- The operand bytes of an instruction, operand A first (R52). -/
def operandBytes : Instr → List Byte
  | .ldi n imm => [regByte n, imm]
  | .ld a b | .st a b | .add a b | .sub a b | .mul a b | .div a b | .and a b | .cmp a b => [regByte a, regByte b]
  | .prn n | .pra n | .inc n | .dec n | .jmp n | .jeq n | .jne n | .push n | .pop n | .call n => [regByte n]
  | .ret | .hlt => []

/-- The bytes of an instruction under an assignment, lowest address first (R50, R52). -/
def encodeWith (o : Mnemonic → Byte) (i : Instr) : List Byte :=
  o i.mnemonic :: operandBytes i

/-- The bytes of an instruction at the spec's assignment. -/
def encode (i : Instr) : List Byte :=
  encodeWith opc i

/-- The three bytes of a table word: byte 0 is bits 7..0, byte 1 bits 15..8, byte 2 bits 23..16; bits from `nbits` up are 0. -/
def tableBytes (nbits w : Nat) : Fetched :=
  let v := w % 2 ^ nbits
  ⟨BitVec.ofNat 8 v, BitVec.ofNat 8 (v / 256), BitVec.ofNat 8 (v / 65536)⟩

/-- The instruction the decoder reads from a word numbered as spec/opcode_table.json numbers it. -/
def decodeTableWord (nbits w : Nat) : Option Instr :=
  match decode (tableBytes nbits w) with
  | .ok i => some i
  | .error _ => none

end Sys2Proof
end

