-- ==== Sys2Proof/Machine/State.lean ====
section
/-! DEFINITION. The state of the machine (spec/10_state.md R10: exactly this survives from one tick to the next), its value
after reset (R26), and the reasons a step could end outside it. -/

namespace Sys2Proof.Machine

/-- The three fatal errors, each with its diagnostic context (R150). -/
inductive FatalError where
  /-- Decode error: the address of the offending byte and the byte (R151). -/
  | decode (addr : Pc) (byte : Byte)
  /-- Arithmetic error: the register indices of the DIV and its address (R152). -/
  | arith (a b : Reg) (pc : Pc)
  /-- Memory-bounds error: the address (R153). -/
  | bounds (addr : Nat)
  deriving DecidableEq, Repr

/-- `fault_info`, the diagnostic record of the fault taken (R21). -/
inductive FaultInfo where
  /-- Nothing has been reported: the content before any fault (R26 leaves it unspecified; DESIGN CHOICE, log entry 2). -/
  | unreported
  /-- The report of the fault taken. -/
  | report (e : FatalError)
  deriving DecidableEq, Repr

/-- The kind of a console event (R102). -/
inductive EventKind where
  | prn
  | pra
  deriving DecidableEq, Repr

/-- One console event `(kind, v)` (R25, R102). -/
structure Event where
  kind : EventKind
  value : Byte
  deriving DecidableEq, Repr

/-- Memory as (address, byte) pairs: addresses strictly rising, no listed byte equal to what an unlisted cell reads as
(R24, R30; the canonical form is `Memory.wf` of Machine/Ops.lean). -/
abbrev Memory := List Host.Cell

/-- The whole state of the machine (R10). -/
structure State where
  /-- R0 to R7 (R11). R7 is the stack pointer (R12). -/
  regs : Vector Byte 8
  /-- The program counter, 9 bits (R14). -/
  pc : Pc
  /-- The flags register, `0b00000LGE` (R17). -/
  fl : Byte
  /-- The run state (R20). -/
  status : Status
  /-- The diagnostic record, meaningful only when `status` is a fault value (R21). -/
  faultInfo : FaultInfo
  /-- The 256 memory cells (R24). -/
  mem : Memory
  /-- The console output stream, oldest event first (R25). -/
  console : List Event
  deriving DecidableEq, Repr

/-- Why a step ends with a fault of the model. NO CONSTRUCTOR: nobody raises one. The spec describes what each of its three
fatal errors does to the state (R156), so a fatal error is a next state with `status` a fault value (log entry 5), and no
other event stops the machine outside its state. Safe: there is nothing a claim could wrongly rest on. -/
inductive Fault where
  deriving DecidableEq, Repr

/-- Why a step is refused by the model. -/
inductive Refusal where
  /-- An instruction that has no meaning yet. Raised by a refused arm of `exec`, of which there is none. Safe: it proves
  nothing of the instruction. -/
  | notModelled (mnemonic : String)
  deriving DecidableEq, Repr

/-- The state right after reset (R26): all registers 0, `pc = 0`, `FL = 0`, RUNNING, every cell 0, console empty. -/
def State.reset : State where
  regs := Vector.replicate 8 Config.resetReg
  pc := Config.resetPc
  fl := Config.resetFl
  status := Config.resetStatus
  faultInfo := .unreported
  mem := []
  console := []

end Sys2Proof.Machine
end

