-- ==== Sys2Proof/Machine/Ops.lean ====
section
/-! DEFINITION. The named operations every instruction is built from: memory, registers, the program counter, the console,
taking a fatal error, and the host's transactions. -/

namespace Sys2Proof.Machine

/-! ## Memory (spec/20_memory.md R30 to R34) -/

/-- What a cell reads as that nothing has written: "reads of unwritten cells return 0" (R34). -/
def Memory.unlisted : Byte := 0

/-- The byte in cell `a`. -/
def Memory.read : Memory → Nat → Byte
  | [], _ => Memory.unlisted
  | (k, w) :: m, a => if k = a then w else Memory.read m a

/-- `(a, v)` in front of `m`, unless `v` is what an unlisted cell reads as. -/
def Memory.put (a : Nat) (v : Byte) (m : Memory) : Memory :=
  if v = Memory.unlisted then m else (a, v) :: m

/-- `v` stored in cell `a`, keeping the canonical form. -/
def Memory.write : Memory → Nat → Byte → Memory
  | [], a, v => Memory.put a v []
  | (k, w) :: m, a, v =>
    if k < a then (k, w) :: Memory.write m a v
    else if k = a then Memory.put a v m
    else Memory.put a v ((k, w) :: m)

/-- The canonical form: addresses strictly rising and below 256, no listed byte equal to the unlisted value. -/
abbrev Memory.wf (m : Memory) : Prop :=
  m.Pairwise (fun c d => c.1 < d.1) ∧ ∀ c ∈ m, c.1 < Config.memSize ∧ c.2 ≠ Memory.unlisted

/-- `MemRead(addr, 1)` (R31): the core checks the address before memory is touched (R32, decision D19). -/
def State.memRead (s : State) (addr : Nat) : Except FatalError Byte :=
  if addr < Config.memSize then .ok (s.mem.read addr) else .error (.bounds addr)

/-- The state with its memory replaced. -/
def State.setMem (s : State) (m : Memory) : State :=
  { s with mem := m }

/-- `MemWrite(addr, 1, v)` (R31), with the same check (R32). -/
def State.memWrite (s : State) (addr : Nat) (v : Byte) : Except FatalError State :=
  if addr < Config.memSize then .ok (s.setMem (s.mem.write addr v)) else .error (.bounds addr)

/-! ## Registers, flags, program counter, console, run state -/

/-- `x[r]` (R11). No register is hard-wired. -/
def State.reg (s : State) (r : Reg) : Byte :=
  s.regs[r]

/-- `x[r] <- v` (R5, R13). -/
def State.setReg (s : State) (r : Reg) (v : Byte) : State :=
  { s with regs := s.regs.set r v }

/-- FL rewritten as a whole: CMP is its only writer (R18). -/
def State.setFl (s : State) (v : Byte) : State :=
  { s with fl := v }

/-- `fallthrough`: `pc <- pc + 1 + op[7:6]`, a sum in the width of `pc`, `op` being the opcode byte of the instruction executed (R78). -/
def State.advance (s : State) (m : Mnemonic) : State :=
  { s with pc := s.pc + BitVec.ofNat Config.pcWidth (1 + operandCount (opc m)) }

/-- `zext_9(t)`: a byte widened to the width of `pc` (R16). -/
def zext9 (t : Byte) : Pc :=
  t.setWidth Config.pcWidth

/-- A jump: `pc <- zext_9(t)`, and nothing is added (R78, R79). -/
def State.jump (s : State) (t : Byte) : State :=
  { s with pc := zext9 t }

/-- `Emit(kind, v)`: one event at the end of the console stream (R25, R102). -/
def State.emit (s : State) (kind : EventKind) (v : Byte) : State :=
  { s with console := s.console ++ [⟨kind, v⟩] }

/-- `status <- HALTED` (R145). `fault_info` is not written. -/
def State.halt (s : State) : State :=
  { s with status := .halted }

/-! ## Taking a fatal error (spec/60_exceptions.md R150 to R158) -/

/-- The `status` value each fault sets (R150). -/
def FatalError.status : FatalError → Status
  | .decode _ _ => .faultDecode
  | .arith _ _ _ => .faultArith
  | .bounds _ => .faultBounds

/-- TAKING A FATAL ERROR, the one operation all three share (R156): `status` takes the fault's value, `fault_info` the
diagnostic, and nothing else changes: nothing is saved or pushed, no mode changes, there is no vector, and `pc` keeps the
address of the faulting instruction (decision D9). There is no return from a fault and no trap-return instruction (R158), so
no operation stands beside this one; only reset leaves a fault state. -/
def State.raise (s : State) (e : FatalError) : State :=
  { s with status := e.status, faultInfo := .report e }

/-- Go on with the result of a checked operation, or take its fault from the state `s` of the tick's start: a fault is
raised before the tick's first write (R45, R157). -/
def State.attempt {α : Type} (s : State) (r : Except FatalError α) (k : α → Host.Outcome State Fault Refusal) :
    Host.Outcome State Fault Refusal :=
  match r with
  | .ok v => k v
  | .error e => .next (s.raise e)

/-! ## The host's transactions (spec/60_exceptions.md R167) -/

/-- `poke(address, value)`: `MemWrite` performed by the host before the first tick (R34, R44). -/
def State.poke (s : State) (addr : Nat) (v : Byte) : Except FatalError State :=
  s.memWrite addr v

/-- `poke` where the address exists; elsewhere nothing is stored. -/
def State.pokeInRange (s : State) (addr : Nat) (v : Byte) : State :=
  match s.poke addr v with
  | .ok t => t
  | .error _ => s

/-- The loader: bytes poked at ascending addresses from `addr` (R176). -/
def State.load (s : State) (addr : Nat) : List Byte → Except FatalError State
  | [] => .ok s
  | v :: vs =>
    match s.poke addr v with
    | .ok t => t.load (addr + 1) vs
    | .error f => .error f

/-- Reset from any state, a stopped one too: the only event that leaves a stopped state (R175, R166). -/
def State.hostReset (_ : State) : State :=
  State.reset

/-- The driver ticks while this holds: it stops when `status` is not RUNNING (R156, R176). -/
def State.driverContinues (s : State) : Bool :=
  s.status == .running

/-- The number a host reads for a run state: the configuration's (R20; log entry 15). No step uses it. -/
def Status.code (t : Status) : Nat :=
  Config.statusCode t

end Sys2Proof.Machine
end

