-- ==== Sys2Proof/Machine/Operands.lean ====
section
/-! DEFINITION. The operand forms. A register operand is `State.reg`, an immediate is the byte itself (R54); here stand the
addresses and targets an instruction computes from registers, and the stack's push and pop. -/

namespace Sys2Proof.Machine

/-- `SP`, another name for R7 (R12). -/
def sp : Reg := 7

/-- `SP_INIT`, the value a push gives an R7 that holds 0 (R4, R27, R133). -/
def stackTop : Byte := 0xF4

/-- The address a store goes to: register indirect, no offset, no scaling (R92). -/
def State.storeAddress (s : State) (a : Reg) : Nat :=
  (s.reg a).toNat

/-- The target of a branch or call: the 8-bit register value, an absolute address (R124). -/
def State.target (s : State) (n : Reg) : Byte :=
  s.reg n

/-- The stack pointer after a push: lazy initialisation when `x[7] = 0` (R133, decision D6; log entry 9), then the
decrement modulo 256 (R131). It is the address the push stores to. -/
def State.pushPointer (s : State) : Byte :=
  (if s.reg sp = 0 then stackTop else s.reg sp) - 1

/-- The address a pop reads: `x[7]`, with no initialisation (R132). -/
def State.popPointer (s : State) : Byte :=
  s.reg sp

/-- CALL's return address, `pc + 2`, as the byte that is stored (R136). -/
def State.returnAddress (s : State) : Byte :=
  (s.pc + 2).setWidth 8

/-- `Push(v)` (R131): R7 is changed, then `v` is written to the cell it names. -/
def State.push (s : State) (v : Byte) : Except FatalError State :=
  (s.setReg sp s.pushPointer).memWrite s.pushPointer.toNat v

/-- `Pop()` (R132): the cell R7 names is read, then R7 is incremented modulo 256. -/
def State.pop (s : State) : Except FatalError (Byte × State) :=
  match s.memRead s.popPointer.toNat with
  | .ok v => .ok (v, s.setReg sp (s.popPointer + 1))
  | .error f => .error f

end Sys2Proof.Machine
end

