-- ==== Sys2Proof/Machine/Alu.lean ====
section
/-! DEFINITION. INC, DEC, ADD, SUB, MUL, DIV, AND (spec/43_alu.md). Every result is reduced modulo 256; no flag is written
(R105). -/

namespace Sys2Proof.Machine

/-- The shape all ALU operations share (R105): both sources are read, the result replaces `x[a]`, the tick falls through. -/
def State.aluWrite (s : State) (m : Mnemonic) (a : Reg) (result : Byte) : Host.Outcome State Fault Refusal :=
  .next ((s.setReg a result).advance m)

/-- `INC Rn` (R106). -/
def execInc (n : Reg) (s : State) : Host.Outcome State Fault Refusal :=
  s.aluWrite .inc n (s.reg n + 1)

/-- `DEC Rn` (R107). -/
def execDec (n : Reg) (s : State) : Host.Outcome State Fault Refusal :=
  s.aluWrite .dec n (s.reg n - 1)

/-- `ADD Ra, Rb` (R108). -/
def execAdd (a b : Reg) (s : State) : Host.Outcome State Fault Refusal :=
  s.aluWrite .add a (s.reg a + s.reg b)

/-- `SUB Ra, Rb` (R109). -/
def execSub (a b : Reg) (s : State) : Host.Outcome State Fault Refusal :=
  s.aluWrite .sub a (s.reg a - s.reg b)

/-- `MUL Ra, Rb` (R110): the low byte of the product. -/
def execMul (a b : Reg) (s : State) : Host.Outcome State Fault Refusal :=
  s.aluWrite .mul a (s.reg a * s.reg b)

/-- `DIV Ra, Rb` (R111): the unsigned quotient; a zero divisor takes the arithmetic error and writes no register (R152). -/
def execDiv (a b : Reg) (s : State) : Host.Outcome State Fault Refusal :=
  if s.reg b = 0 then .next (s.raise (.arith a b s.pc))
  else s.aluWrite .div a (s.reg a / s.reg b)

/-- `AND Ra, Rb` (R112). -/
def execAnd (a b : Reg) (s : State) : Host.Outcome State Fault Refusal :=
  s.aluWrite .and a (s.reg a &&& s.reg b)

end Sys2Proof.Machine
end

