-- ==== Sys2Proof/Machine/Flags.lean ====
section
/-! DEFINITION. The flags register FL, `0b00000LGE` (spec/10_state.md R17 to R19). The bit positions are the configuration's
(decision D2; log entry 14). -/

namespace Sys2Proof.Machine

/-- FL with E alone set (R17). -/
def flE : Byte := BitVec.twoPow 8 Config.flEBit

/-- FL with G alone set (R17). -/
def flG : Byte := BitVec.twoPow 8 Config.flGBit

/-- FL with L alone set (R17). -/
def flL : Byte := BitVec.twoPow 8 Config.flLBit

/-- The Equal bit: the only bit a branch inspects (R18). -/
def flagE (fl : Byte) : Bool := fl.getLsbD Config.flEBit

/-- The Greater-than bit. -/
def flagG (fl : Byte) : Bool := fl.getLsbD Config.flGBit

/-- The Less-than bit. -/
def flagL (fl : Byte) : Bool := fl.getLsbD Config.flLBit

/-- What CMP leaves in FL for left side `p` and right side `q`, compared as unsigned integers; all other bits are 0 (R120). -/
def compareFlags (p q : Byte) : Byte :=
  if p.toNat = q.toNat then flE
  else if p.toNat < q.toNat then flL
  else flG

end Sys2Proof.Machine
end

