-- ==== Sys2Proof/Machine/CompareBranch.lean ====
section
/-! DEFINITION. CMP, JMP, JEQ, JNE (spec/44_compare_branch.md). -/

namespace Sys2Proof.Machine

/-- `CMP Ra, Rb` (R120). -/
def execCmp (a b : Reg) (s : State) : Host.Outcome State Fault Refusal :=
  .next ((s.setFl (compareFlags (s.reg a) (s.reg b))).advance .cmp)

/-- `JMP Rn` (R121). -/
def execJmp (n : Reg) (s : State) : Host.Outcome State Fault Refusal :=
  .next (s.jump (s.target n))

/-- `JEQ Rn` (R122): taken when E is 1. -/
def execJeq (n : Reg) (s : State) : Host.Outcome State Fault Refusal :=
  .next (if flagE s.fl then s.jump (s.target n) else s.advance .jeq)

/-- `JNE Rn` (R123): taken when E is 0. -/
def execJne (n : Reg) (s : State) : Host.Outcome State Fault Refusal :=
  .next (if flagE s.fl then s.advance .jne else s.jump (s.target n))

end Sys2Proof.Machine
end

