-- ==== Sys2Proof/Machine/Console.lean ====
section
/-! DEFINITION. PRN, PRA and the reference text of a console event (spec/42_console_output.md). -/

namespace Sys2Proof.Machine

/-- `PRN Rn` (R100). -/
def execPrn (n : Reg) (s : State) : Host.Outcome State Fault Refusal :=
  .next ((s.emit .prn (s.reg n)).advance .prn)

/-- `PRA Rn` (R101). -/
def execPra (n : Reg) (s : State) : Host.Outcome State Fault Refusal :=
  .next ((s.emit .pra (s.reg n)).advance .pra)

/-- The decimal digits of a byte's value, most significant first, no leading zeros, `0` for zero (R102). -/
def decimalDigits (n : Nat) : List Nat :=
  if n < 10 then [n]
  else if n < 100 then [n / 10, n % 10]
  else [n / 100, n / 10 % 10, n % 10]

/-- The line break after each event's text (D11). WHICH CHARACTER IT IS the spec leaves open (N12: it is silent on the line
terminator): the model takes U+000A. DESIGN CHOICE, unsafe for a claim about printed text (log entry 16). -/
def lineBreak : Char := '\n'

/-- The text a console shows for an event, for reference (R102, decision D11; log entry 16): the decimal numeral or the one
character, then the line break (U+000A: the model's choice, see `lineBreak`). It is outside the core and no step uses it. -/
def Event.text (e : Event) : List Char :=
  match e.kind with
  | .prn => (decimalDigits e.value.toNat).map Nat.digitChar ++ [lineBreak]
  | .pra => [Char.ofNat e.value.toNat, lineBreak]

end Sys2Proof.Machine
end

