-- ==== Sys2Proof/Machine/Halt.lean ====
section
/-! DEFINITION. HLT (spec/46_halt.md). -/

namespace Sys2Proof.Machine

/-- `HLT` (R145): the tick completes, so `pc` ends one past the HLT (R81, decision D9; log entry 11). -/
def execHlt (s : State) : Host.Outcome State Fault Refusal :=
  .next (s.halt.advance .hlt)

end Sys2Proof.Machine
end

