-- ==== Sys2Proof/Machine/LoadStore.lean ====
section
/-! DEFINITION. LDI, LD, ST (spec/41_load_store.md). -/

namespace Sys2Proof.Machine

/-- `LDI Rn, imm` (R90). -/
def execLdi (n : Reg) (imm : Byte) (s : State) : Host.Outcome State Fault Refusal :=
  .next ((s.setReg n imm).advance .ldi)

/-- `LD Ra, Rb` (R91): a register copy; data memory is not read. -/
def execLd (a b : Reg) (s : State) : Host.Outcome State Fault Refusal :=
  .next ((s.setReg a (s.reg b)).advance .ld)

/-- `ST Ra, Rb` (R92). -/
def execSt (a b : Reg) (s : State) : Host.Outcome State Fault Refusal :=
  s.attempt (s.memWrite (s.storeAddress a) (s.reg b)) fun t => .next (t.advance .st)

end Sys2Proof.Machine
end

