-- ==== Sys2Proof/Machine/StackSubroutine.lean ====
section
/-! DEFINITION. PUSH, POP, CALL, RET (spec/45_stack_subroutine.md). All sources are read before R7 changes (R76, decision
D7; log entry 10). -/

namespace Sys2Proof.Machine

/-- `PUSH Rn` (R134): the value pushed is the one `x[n]` held before the instruction. -/
def execPush (n : Reg) (s : State) : Host.Outcome State Fault Refusal :=
  s.attempt (s.push (s.reg n)) fun t => .next (t.advance .push)

/-- `POP Rn` (R135): the destination is written after R7's increment. -/
def execPop (n : Reg) (s : State) : Host.Outcome State Fault Refusal :=
  s.attempt s.pop fun p => .next ((p.2.setReg n p.1).advance .pop)

/-- `CALL Rn` (R136): the target is the value `x[n]` held before the push. -/
def execCall (n : Reg) (s : State) : Host.Outcome State Fault Refusal :=
  s.attempt (s.push s.returnAddress) fun t => .next (t.jump (s.target n))

/-- `RET` (R137): the popped byte goes directly into `pc`. -/
def execRet (s : State) : Host.Outcome State Fault Refusal :=
  s.attempt s.pop fun p => .next (p.2.jump p.1)

end Sys2Proof.Machine
end

