-- ==== Sys2Proof/Machine/Dispatch.lean ====
section
/-! DEFINITION. The one match from an instruction to its meaning (spec/40_execution_cycle.md R74, R77: "to exactly one
handler"). -/

namespace Sys2Proof.Machine

def exec (i : Instr) (s : State) : Host.Outcome State Fault Refusal :=
  match i with
  | .ldi n imm => Sys2Proof.Machine.execLdi n imm s
  | .ld a b => Sys2Proof.Machine.execLd a b s
  | .st a b => Sys2Proof.Machine.execSt a b s
  | .prn n => Sys2Proof.Machine.execPrn n s
  | .pra n => Sys2Proof.Machine.execPra n s
  | .inc n => Sys2Proof.Machine.execInc n s
  | .dec n => Sys2Proof.Machine.execDec n s
  | .add a b => Sys2Proof.Machine.execAdd a b s
  | .sub a b => Sys2Proof.Machine.execSub a b s
  | .mul a b => Sys2Proof.Machine.execMul a b s
  | .div a b => Sys2Proof.Machine.execDiv a b s
  | .and a b => Sys2Proof.Machine.execAnd a b s
  | .cmp a b => Sys2Proof.Machine.execCmp a b s
  | .jmp n => Sys2Proof.Machine.execJmp n s
  | .jeq n => Sys2Proof.Machine.execJeq n s
  | .jne n => Sys2Proof.Machine.execJne n s
  | .push n => Sys2Proof.Machine.execPush n s
  | .pop n => Sys2Proof.Machine.execPop n s
  | .call n => Sys2Proof.Machine.execCall n s
  | .ret => Sys2Proof.Machine.execRet s
  | .hlt => Sys2Proof.Machine.execHlt s

end Sys2Proof.Machine
end

