-- ==== Sys2Proof/Machine/Fetch.lean ====
section
/-! DEFINITION. The front end of a tick: the fetch of three bytes and their decoding, with the fault each check raises
(spec/40_execution_cycle.md R72 to R75), and the placing of an instruction where the next tick fetches. -/

namespace Sys2Proof.Machine

/-- The fetch: three bounds-checked reads, always, in this order; the addresses are sums that do not wrap (R72, R73,
decision D4; log entry 8). -/
def State.fetch (s : State) : Except FatalError Fetched :=
  match s.memRead s.pc.toNat with
  | .error f => .error f
  | .ok op =>
    match s.memRead (s.pc.toNat + 1) with
    | .error f => .error f
    | .ok a =>
      match s.memRead (s.pc.toNat + 2) with
      | .error f => .error f
      | .ok b => .ok ⟨op, a, b⟩

/-- The report of a decode error: address and value of the offending byte (R151). -/
def State.decodeFault (s : State) (f : Fetched) : DecodeError → FatalError
  | .unknownOpcode => .decode s.pc f.op
  | .operandA => .decode (s.pc + 1) f.a
  | .operandB => .decode (s.pc + 2) f.b

/-- Fetch, then decode (R74, R75): the bounds checks come before the decode checks (R155). -/
def State.fetchInstr (s : State) : Except FatalError Instr :=
  match s.fetch with
  | .error f => .error f
  | .ok f =>
    match decode f with
    | .ok i => .ok i
    | .error e => .error (s.decodeFault f e)

/-- Three bytes poked at `pc`, `pc + 1` and `pc + 2`. A byte whose address is above 255 has no cell and is dropped: with
`pc >= 254` no instruction can be fetched (R73). -/
def State.placeFetched (s : State) (f : Fetched) : State :=
  ((s.pokeInRange s.pc.toNat f.op).pokeInRange (s.pc.toNat + 1) f.a).pokeInRange (s.pc.toNat + 2) f.b

end Sys2Proof.Machine
end

