-- ==== Sys2Proof/Machine/Step.lean ====
section
/-! DEFINITION. One tick (spec/40_execution_cycle.md R80), and the placing of a table word where it fetches. -/

namespace Sys2Proof.Machine

/-- `Tick()` (R80): nothing happens unless RUNNING (R71, decision D12; log entry 12); a fault of fetch or decode is taken;
otherwise the decoded instruction is executed. -/
def step (s : State) : Host.Outcome State Fault Refusal :=
  if s.status = .running then
    match s.fetchInstr with
    | .ok i => exec i s
    | .error f => .next (s.raise f)
  else .next s

/-- `s` with the instruction of a table word stored where the next tick fetches (log entry 6). -/
def State.withFetchWord (s : State) (nbits w : Nat) : State :=
  s.placeFetched (tableBytes nbits w)

end Sys2Proof.Machine
end

