-- ==== Sys2Proof/Safety.lean ====
section
/-! DEFINITION. The terms claims are made in: how a run ends, what an instruction keeps, the invariant of the machine, and
the stack as a sequence of pushes and pops. -/

namespace Sys2Proof.Machine

/-! ## How a run ends -/

/-- Gone wrong: `status` is one of the three fault values (R160). -/
def State.goneWrong (s : State) : Bool :=
  s.status == .faultDecode || s.status == .faultArith || s.status == .faultBounds

/-- A finished run: `status = HALTED` (R160). -/
def State.finished (s : State) : Bool :=
  s.status == .halted

/-! ## Frames -/

/-- Every register outside `w` is kept from `s` to `t`. -/
def RegsKept (s t : State) (w : List Reg) : Prop :=
  ∀ r, r ∉ w → t.reg r = s.reg r

/-- Every memory cell outside `w` reads as before. -/
def CellsKept (s t : State) (w : List Nat) : Prop :=
  ∀ a, a ∉ w → t.mem.read a = s.mem.read a

/-- FL, the run state, the fault record and the console stream are kept. -/
def RestKept (s t : State) : Prop :=
  t.fl = s.fl ∧ t.status = s.status ∧ t.faultInfo = s.faultInfo ∧ t.console = s.console

/-- `i` completes in `s`; it leaves the unsigned value `v` in register `d`, advances `pc` by `len`, and keeps all else. -/
def WritesOnly (i : Instr) (s : State) (d : Reg) (v : Nat) (len : Pc) : Prop :=
  ∃ t, exec i s = .next t ∧ (t.reg d).toNat = v ∧ t.pc = s.pc + len ∧
    RegsKept s t [d] ∧ CellsKept s t [] ∧ RestKept s t

/-- `i` completes in `s` and writes only `pc`, which becomes `p`. -/
def SetsOnlyPc (i : Instr) (s : State) (p : Pc) : Prop :=
  exec i s = .next { s with pc := p }

/-- The bytes at `pc`, `pc + 1` and `pc + 2` (R72). -/
def State.bytesAtPc (s : State) : Fetched :=
  ⟨s.mem.read s.pc.toNat, s.mem.read (s.pc.toNat + 1), s.mem.read (s.pc.toNat + 2)⟩

/-- The state a fatal error leaves: `status` and `fault_info` written, nothing else (R156). -/
def State.stoppedBy (s : State) (status : Status) (e : FatalError) : State :=
  { s with status := status, faultInfo := .report e }

/-! ## The invariant -/

/-- The only values FL ever holds (R19). -/
def flLegal (fl : Byte) : Prop :=
  fl = 0 ∨ fl = flE ∨ fl = flG ∨ fl = flL

/-- In a fault state the record is the one its fault makes (R21), of the bytes at `pc`, where a fault leaves `pc` (decision
D9, log entry 11): a decode error's, when they do not decode for that reason (R151; a register byte above 7: decision D5, log
entry 7); a DIV's registers and address, when they decode to that DIV and its divisor is 0 (R152); or address 256, when `pc`
is 254 or more (R153, decision D4, log entry 8). Of the other states nothing is said: there the record has no meaning. -/
def State.recordAgrees (s : State) : Prop :=
  match s.status with
  | .running | .halted => True
  | .faultDecode => s.pc.toNat ≤ 253 ∧ ∃ e, decode s.bytesAtPc = .error e ∧
      s.faultInfo = .report (s.decodeFault s.bytesAtPc e)
  | .faultArith => s.pc.toNat ≤ 253 ∧ ∃ a b, decode s.bytesAtPc = .ok (.div a b) ∧ s.reg b = 0 ∧
      s.faultInfo = .report (.arith a b s.pc)
  | .faultBounds => 254 ≤ s.pc.toNat ∧ s.faultInfo = .report (.bounds 256)

/-- The invariant of the machine: memory in its canonical form (the model's own DESIGN CHOICE, log entry 18), `pc` at most
256 (R14, decision D3, log entry 4), FL one of its four values (R19; their bits: decision D2, log entry 14), the fault record
the one its fault makes (R21). -/
structure State.Inv (s : State) : Prop where
  mem : s.mem.wf
  pc : s.pc.toNat ≤ 256
  fl : flLegal s.fl
  record : s.recordAgrees

/-! ## The stack as a sequence -/

/-- The pushes of `vs`, first byte first (R131). -/
def State.pushAll (s : State) : List Byte → Except FatalError State
  | [] => .ok s
  | v :: vs =>
    match s.push v with
    | .ok t => t.pushAll vs
    | .error e => .error e

/-- `n` pops, the bytes in the order they come off (R132). -/
def State.popAll (s : State) : Nat → Except FatalError (List Byte × State)
  | 0 => .ok ([], s)
  | n + 1 =>
    match s.pop with
    | .error e => .error e
    | .ok (v, t) =>
      match t.popAll n with
      | .error e => .error e
      | .ok (vs, u) => .ok (v :: vs, u)

end Sys2Proof.Machine
end

