-- ==== Sys2Proof/Certificates/Slice0/Obligations.lean ====
section
/-! DEFINITION. The statements about the machine, each formalising rules of spec/. A frame is said with `RegsKept`,
`CellsKept` and `RestKept` of Sys2Proof/Safety.lean. The premise `mem.wf` is the canonical form of memory, the model's own
DESIGN CHOICE (log entry 18); every tick keeps it (`StepKeepsInv`). That a fatal error is answered as a next state
(`State.stoppedBy`) is a DESIGN CHOICE too (log entry 5). -/

open Sys2Proof Sys2Proof.Machine

/-! ## Encoding -/

/-- For every assignment that meets R56, the three bytes fetched from where an instruction stands decode to it, whatever
follows it in memory. -/
def Obligations.DecodeReadsBackEveryEncoding : Prop :=
  ∀ o, OpcWellFormed o → ∀ (i : Instr) (p q : Byte), ∃ op a b rest,
    encodeWith o i ++ [p, q] = op :: a :: b :: rest ∧ decodeWith o ⟨op, a, b⟩ = .ok i

/-- For every assignment that meets R56, what decodes is the encoding of what it decodes to: the first `1 + op[7:6]` of the
three bytes are exactly the instruction's bytes. That no other bytes mean it rests on the spec's own decision D5 (R53; log
entry 7): a register byte above 7 is refused, and its high bits are not masked away. -/
def Obligations.EncodeReadsBackEveryDecoding : Prop :=
  ∀ o, OpcWellFormed o → ∀ (f : Fetched) (i : Instr), decodeWith o f = .ok i →
    encodeWith o i = [f.op, f.a, f.b].take (1 + f.op.toNat / 64)

/-- R62: all eight bits of the opcode byte are matched, register operand bytes are then checked, and surplus bytes are not
used. That a register byte above 7 is refused, and A before B, is R53 and R75, decision D5 (log entry 7). It holds of every
assignment that meets R56, and the bytes of R55, decision D1 (log entry 1), are one. -/
def Obligations.DecodeMatchesWholeOpcodeByte : Prop :=
  OpcWellFormed opc ∧ ∀ o, OpcWellFormed o → ∀ f : Fetched,
    (decodeWith o f = .error .unknownOpcode ↔ ∀ m, o m ≠ f.op) ∧
    (∀ i, decodeWith o f = .ok i → o i.mnemonic = f.op) ∧
    (∀ m, o m = f.op →
      (m.format.usesRegA = true → 7 < f.a.toNat → decodeWith o f = .error .operandA) ∧
      (m.format.usesRegB = true → f.a.toNat ≤ 7 → 7 < f.b.toNat → decodeWith o f = .error .operandB) ∧
      (m.format = .r → ∀ v, decodeWith o { f with b := v } = decodeWith o f) ∧
      (m.format = .z → ∀ v w, decodeWith o { f with a := v, b := w } = decodeWith o f))

/-- The decoder accepts exactly the well-formed bytes (R57, R62). That a register byte above 7 is no instruction is the spec's
own decision D5 (R53; log entry 7). -/
def Obligations.DecodeAcceptsExactlyTheWellFormed : Prop :=
  ∀ o, OpcWellFormed o → ∀ f : Fetched, (∃ i, decodeWith o f = .ok i) ↔ f.WellFormed o

/-- R57: under any assignment 235 opcode bytes are unknown, every byte 0xC0 to 0xFF among them; under the assignment of R55
(decision D1, log entry 1) so is 0x00. -/
def Obligations.UnknownOpcodesAre235 : Prop :=
  (∀ o, OpcWellFormed o →
    (Finset.univ.filter fun v : Byte => lookupOpcode o v = none).card = 235 ∧
    ∀ v : Byte, 0xC0 ≤ v.toNat → lookupOpcode o v = none) ∧
  lookupOpcode opc 0x00 = none

/-- A sanity check of the decoder on words written out from R90 to R145 (their opcode bytes are decision D1, log entry 1). -/
def Obligations.WordsDecodeAsEncoded : Prop :=
  decode ⟨0b10011001, 0b00000101, 0b11111111⟩ = .ok (.ldi 5 0xFF) ∧
  decode ⟨0b10011010, 0b00000100, 0b00000001⟩ = .ok (.st 4 1) ∧
  decode ⟨0b01000011, 0b00000111, 0b11111111⟩ = .ok (.prn 7) ∧
  decode ⟨0b10101001, 0b00000010, 0b00000011⟩ = .ok (.sub 2 3) ∧
  decode ⟨0b10100000, 0b00000000, 0b00000010⟩ = .ok (.cmp 0 2) ∧
  decode ⟨0b01001000, 0b00000011, 0b00000000⟩ = .ok (.call 3) ∧
  decode ⟨0b00000001, 0b11111111, 0b11111111⟩ = .ok .hlt

/-! ## The tick -/

/-- When the bytes at `pc` decode to an instruction, a tick is that instruction's meaning, and adds nothing to it. -/
def Obligations.StepRunsDecodedInstruction : Prop :=
  ∀ (s : State) (i : Instr), s.status = .running → s.pc.toNat ≤ 253 → decode s.bytesAtPc = .ok i →
    step s = exec i s

/-- R70: a tick never blocks: every state, running or stopped, has a next state. That a fatal error is a next state and never
a Fault of the model is the model's own DESIGN CHOICE (log entry 5); that a tick of a stopped core has one, the state itself,
is decision D12 (R71; log entry 12). -/
def Obligations.EveryTickAnswersNext : Prop :=
  ∀ s : State, ∃ t, step s = .next t

/-- R71 (decision D12, log entry 12): a tick of a stopped core changes nothing. -/
def Obligations.StoppedTickChangesNothing : Prop :=
  ∀ s : State, s.status ≠ .running → step s = .next s

/-- R73 (decision D4, log entry 8): a tick that starts with `pc` from 254 to 256 takes the memory-bounds error at address
256, whatever the bytes there; `pc` is kept (decision D9, log entry 11). -/
def Obligations.FetchNearTheTopFaults : Prop :=
  ∀ s : State, s.status = .running → 254 ≤ s.pc.toNat → s.pc.toNat ≤ 256 →
    step s = .next (s.stoppedBy .faultBounds (.bounds 256))

/-- R74, R151 case 1: an unknown opcode byte takes the decode error with its address and value; `pc` is kept
(decision D9, log entry 11). -/
def Obligations.UnknownOpcodeFaults : Prop :=
  ∀ s : State, s.status = .running → s.pc.toNat ≤ 253 → (∀ m, opc m ≠ s.mem.read s.pc.toNat) →
    step s = .next (s.stoppedBy .faultDecode (.decode s.pc (s.mem.read s.pc.toNat)))

/-- R75, R151 case 2 (decision D5, log entry 7): a register operand byte above 7 takes the decode error with that byte's
address and value, operand A before operand B; `pc` is kept (decision D9, log entry 11). -/
def Obligations.RegisterOperandAboveSevenFaults : Prop :=
  ∀ (s : State) (m : Mnemonic), s.status = .running → s.pc.toNat ≤ 253 → opc m = s.bytesAtPc.op →
    (m.format.usesRegA = true → 7 < s.bytesAtPc.a.toNat →
      step s = .next (s.stoppedBy .faultDecode (.decode (s.pc + 1) s.bytesAtPc.a))) ∧
    (m.format.usesRegB = true → s.bytesAtPc.a.toNat ≤ 7 → 7 < s.bytesAtPc.b.toNat →
      step s = .next (s.stoppedBy .faultDecode (.decode (s.pc + 2) s.bytesAtPc.b)))

/-- R150, R155, R160: a running core stops in exactly four ways, and these are the conditions of each, in the order of the
tick (priority: decision D13, log entry 13). That every `pc` from 254 up faults is R73, decision D4 (log entry 8); that a
register byte above 7 is not well-formed is R53, decision D5 (log entry 7). -/
def Obligations.TickStopsInExactlyFourWays : Prop :=
  ∀ s t : State, s.status = .running → s.pc.toNat ≤ 256 → step s = .next t →
    (t.status = .faultBounds ↔ 254 ≤ s.pc.toNat) ∧
    (t.status = .faultDecode ↔ s.pc.toNat ≤ 253 ∧ ¬ s.bytesAtPc.WellFormed opc) ∧
    (t.status = .faultArith ↔ s.pc.toNat ≤ 253 ∧ ∃ a b, decode s.bytesAtPc = .ok (.div a b) ∧ s.reg b = 0) ∧
    (t.status = .halted ↔ s.pc.toNat ≤ 253 ∧ decode s.bytesAtPc = .ok .hlt)

/-- R156, R157: faults are precise. A tick that ends in a fault changes `status` and `fault_info` and nothing else (that
`pc` is kept is decision D9, log entry 11). -/
def Obligations.FaultingTickChangesNothingElse : Prop :=
  ∀ s t : State, s.status = .running → step s = .next t → t.goneWrong = true →
    ∃ e, t = s.stoppedBy t.status e

/-- R158: the stop of a fatal error is permanent, however many ticks are asked for (a tick of a stopped core: decision D12,
log entry 12); only reset leaves it, to RUNNING (decision D8, log entry 3). -/
def Obligations.FaultStopIsPermanent : Prop :=
  ∀ s : State, s.goneWrong = true →
    (∀ k, Host.Core.run core k s = .next s) ∧ s.hostReset.status = .running

/-- R152: the arithmetic error is raised by DIV with a zero divisor, before the destination is written, and by no other
instruction. The report holds the two registers and `pc`, which the spec adds; `pc` is kept (decision D9, log entry 11). -/
def Obligations.ArithmeticErrorIsDivByZero : Prop :=
  (∀ (a b : Reg) (s : State), s.reg b = 0 →
    exec (.div a b) s = .next (s.stoppedBy .faultArith (.arith a b s.pc))) ∧
  (∀ (i : Instr) (s t : State), exec i s = .next t → t.status = .faultArith → s.status ≠ .faultArith →
    ∃ a b, i = .div a b ∧ s.reg b = 0)

/-! ## Invariants and reset -/

/-- The machine's invariant is kept by every tick: memory canonical (the model's own DESIGN CHOICE, log entry 18), `pc` at
most 256 (decision D3, log entry 4), FL one of 0x00, 0x01, 0x02, 0x04 (decision D2, log entry 14), and in a fault state the
fault record the one the bytes at `pc` make (R21, R151 to R153; decisions D4, D5 and D9, log entries 8, 7 and 11). -/
def Obligations.StepKeepsInv : Prop :=
  ∀ s t : State, s.Inv → step s = .next t → t.Inv

/-- The invariant of `StepKeepsInv` holds at reset (FL and `status` there: decision D8, log entry 3; the canonical form of
memory: log entry 18). -/
def Obligations.ResetHasInv : Prop :=
  State.reset.Inv

/-- R26: what reset leaves. The values of R0 to R6, FL and `status` are the spec's decision D8 (log entry 3). -/
def Obligations.ResetLeavesTheTabledValues : Prop :=
  (∀ r, State.reset.reg r = 0) ∧ State.reset.pc = 0 ∧ State.reset.fl = 0 ∧ State.reset.status = .running ∧
  (∀ a, State.reset.mem.read a = 0) ∧ State.reset.console = [] ∧ ∀ s : State, s.hostReset = State.reset

/-- Two canonical memories that read alike at every address are equal: the list holds the 256 cells of R30 and nothing more.
The canonical list is the model's own DESIGN CHOICE (log entry 18), of which the spec says nothing. -/
def Obligations.CanonicalMemoryIsUnique : Prop :=
  ∀ m m' : Memory, m.wf → m'.wf → (∀ a, m.read a = m'.read a) → m = m'

/-! ## Memory and the console -/

/-- R31: the memory contract. -/
def Obligations.MemoryKeepsItsContract : Prop :=
  (∀ s : State, s.mem.wf → ∀ (addr : Nat) (v : Byte),
    (addr ≤ 255 → s.memRead addr = .ok (s.mem.read addr) ∧
      ∃ t, s.memWrite addr v = .ok t ∧ t.memRead addr = .ok v ∧
        (∀ b, b ≠ addr → t.memRead b = s.memRead b) ∧ t = { s with mem := t.mem }) ∧
    (255 < addr → s.memRead addr = .error (.bounds addr) ∧ s.memWrite addr v = .error (.bounds addr))) ∧
  (∀ addr, addr ≤ 255 → State.reset.memRead addr = .ok 0)

/-- R34, R176: the loader's bytes stand where it poked them, and nothing else changes. -/
def Obligations.LoaderPlacesTheBytes : Prop :=
  ∀ (s : State) (k : Nat) (vs : List Byte), s.mem.wf → k + vs.length ≤ 256 →
    ∃ t, s.load k vs = .ok t ∧ (∀ j (h : j < vs.length), t.mem.read (k + j) = vs[j]) ∧
      (∀ a, a < k ∨ k + vs.length ≤ a → t.mem.read a = s.mem.read a) ∧ t = { s with mem := t.mem }

/-- Memory changes only by ST, PUSH and CALL, and only in the one cell each stores to (R10, R37; a push's cell
when R7 holds 0: decision D6, log entry 9). -/
def Obligations.MemoryChangesOnlyByStoreAndPush : Prop :=
  ∀ (i : Instr) (s t : State) (a : Nat), exec i s = .next t → t.mem.read a ≠ s.mem.read a →
    (∃ p q, i = .st p q ∧ a = s.storeAddress p) ∨
    (∃ n, (i = .push n ∨ i = .call n) ∧ a = s.pushPointer.toNat)

/-- Which register an instruction may change (the table of R13). -/
def Obligations.RegistersChangeOnlyAsTabled : Prop :=
  ∀ (i : Instr) (s t : State) (r : Reg), exec i s = .next t → t.reg r ≠ s.reg r →
    match i with
    | .ldi n _ | .inc n | .dec n => r = n
    | .ld a _ | .add a _ | .sub a _ | .mul a _ | .and a _ => r = a
    | .div a b => r = a ∧ s.reg b ≠ 0
    | .push _ | .call _ | .ret => r = 7
    | .pop n => r = 7 ∨ r = n
    | .st _ _ | .prn _ | .pra _ | .cmp _ _ | .jmp _ | .jeq _ | .jne _ | .hlt => False

/-- R42: a store is seen by the very next fetch, whichever of its three bytes it hits. -/
def Obligations.StoreIsSeenByTheNextFetch : Prop :=
  ∀ (a b : Reg) (s t : State), s.mem.wf → s.pc.toNat ≤ 250 → exec (.st a b) s = .next t →
    ∃ f, t.fetch = .ok f ∧
      (s.storeAddress a = s.pc.toNat + 3 → f.op = s.reg b) ∧
      (s.storeAddress a = s.pc.toNat + 4 → f.a = s.reg b) ∧
      (s.storeAddress a = s.pc.toNat + 5 → f.b = s.reg b)

/-- R25: the console stream is append-only, holds what PRN and PRA produced since reset, and influences no tick. -/
def Obligations.ConsoleIsAppendedAndNeverRead : Prop :=
  State.reset.console = [] ∧
  ∀ s t : State, step s = .next t → ∃ es, t.console = s.console ++ es ∧
    (es = [] ∨ (∃ n, decode s.bytesAtPc = .ok (.prn n) ∧ es = [⟨.prn, s.reg n⟩]) ∨
      (∃ n, decode s.bytesAtPc = .ok (.pra n) ∧ es = [⟨.pra, s.reg n⟩])) ∧
    ∀ c, step { s with console := c } = .next { t with console := c ++ es }

/-- R102: the reference text of an event is its decimal numeral without leading zeros, or its one character, and a line
break (decision D11). That the line break is U+000A is the model's own DESIGN CHOICE (log entry 16). -/
def Obligations.EventTextIsNumeralOrCharacter : Prop :=
  ∀ v : Byte,
    (∃ ds, Event.text ⟨.prn, v⟩ = ds.map Nat.digitChar ++ ['\n'] ∧ ds.foldl (fun n d => 10 * n + d) 0 = v.toNat ∧
      ds ≠ [] ∧ (∀ d ∈ ds, d ≤ 9) ∧ (ds.head? = some 0 → ds = [0])) ∧
    (∃ c : Char, Event.text ⟨.pra, v⟩ = [c, '\n'] ∧ c.toNat = v.toNat)

/-! ## Load, store, output -/

/-- R90: LDI writes its immediate, unchanged, to R`n`. -/
def Obligations.LdiLoadsItsImmediate : Prop :=
  ∀ (n : Reg) (imm : Byte) (s : State), WritesOnly (.ldi n imm) s n imm.toNat 3

/-- R91: LD copies R`b` to R`a` and reads no data memory: the result does not depend on the memory. -/
def Obligations.LdCopiesARegister : Prop :=
  ∀ (a b : Reg) (s : State), WritesOnly (.ld a b) s a (s.reg b).toNat 3 ∧
    ∀ m t, exec (.ld a b) s = .next t → exec (.ld a b) { s with mem := m } = .next { t with mem := m }

/-- R92: ST stores R`b` in the cell R`a` addresses, and keeps every register and every other cell. -/
def Obligations.StStoresWhereRaPoints : Prop :=
  ∀ (a b : Reg) (s : State), ∃ t, exec (.st a b) s = .next t ∧
    (s.mem.wf → t.mem.read (s.reg a).toNat = s.reg b) ∧ s.storeAddress a = (s.reg a).toNat ∧ t.pc = s.pc + 3 ∧
    RegsKept s t [] ∧ CellsKept s t [s.storeAddress a] ∧ RestKept s t

/-- R100, R101: PRN and PRA append one event with the register's value, and change nothing else but `pc`. -/
def Obligations.PrnAndPraEmitOneEvent : Prop :=
  ∀ (n : Reg) (s : State),
    exec (.prn n) s = .next { s with pc := s.pc + 2, console := s.console ++ [⟨.prn, s.reg n⟩] } ∧
    exec (.pra n) s = .next { s with pc := s.pc + 2, console := s.console ++ [⟨.pra, s.reg n⟩] }

/-! ## ALU -/

/-- R105: the value each ALU operation writes, of unsigned operands `p` and `q` read before the destination is written,
with every flag, every other register and all of memory kept, and `pc` advanced by the length (R78, R106 to R112). DIV by zero
writes no register: it takes the arithmetic error (R152), whose report holds the registers and, as the spec adds, `pc`, and it
keeps `pc` (decision D9, log entry 11). -/
def Obligations.AluWritesItsLaw : Prop :=
  ∀ (a b : Reg) (s : State) (p q : Nat), p = (s.reg a).toNat → q = (s.reg b).toNat →
    WritesOnly (.inc a) s a ((p + 1) % 256) 2 ∧
    WritesOnly (.dec a) s a (if p = 0 then 255 else p - 1) 2 ∧
    WritesOnly (.add a b) s a ((p + q) % 256) 3 ∧
    WritesOnly (.sub a b) s a (if q ≤ p then p - q else p + 256 - q) 3 ∧
    WritesOnly (.mul a b) s a ((p * q) % 256) 3 ∧
    WritesOnly (.and a b) s a (p &&& q) 3 ∧
    (q ≠ 0 → WritesOnly (.div a b) s a (p / q) 3) ∧
    (q = 0 → exec (.div a b) s = .next (s.stoppedBy .faultArith (.arith a b s.pc)))

/-! ## Compare and branch -/

/-- R120, R19: CMP sets exactly one of E, L, G, by the unsigned order of its operands, whatever FL was (the positions are
decision D2, log entry 14), and changes nothing else but `pc`. -/
def Obligations.CmpSetsExactlyOneFlag : Prop :=
  ∀ (a b : Reg) (s : State), ∃ t, exec (.cmp a b) s = .next t ∧
    (t.fl = 0x01 ↔ (s.reg a).toNat = (s.reg b).toNat) ∧
    (t.fl = 0x04 ↔ (s.reg a).toNat < (s.reg b).toNat) ∧
    (t.fl = 0x02 ↔ (s.reg b).toNat < (s.reg a).toNat) ∧
    (flagE t.fl = true ↔ t.fl = 0x01) ∧ (flagL t.fl = true ↔ t.fl = 0x04) ∧ (flagG t.fl = true ↔ t.fl = 0x02) ∧
    t = { s with pc := s.pc + 3, fl := t.fl }

/-- R18: CMP alone writes FL, all of it at once; JEQ and JNE alone read it, and only bit E. -/
def Obligations.FlagsBelongToCmpAndTheEqualBranches : Prop :=
  ∀ (i : Instr) (s t : State), exec i s = .next t →
    ((∀ a b, i ≠ .cmp a b) → t.fl = s.fl) ∧
    (∀ a b, i = .cmp a b → ∀ v, exec i { s with fl := v } = .next t) ∧
    ((∀ n, i ≠ .jeq n) → (∀ n, i ≠ .jne n) →
      ∀ v, ∃ t', exec i { s with fl := v } = .next t' ∧ { t' with fl := t.fl } = t) ∧
    (∀ v, flagE v = flagE s.fl → ∃ t', exec i { s with fl := v } = .next t' ∧ { t' with fl := t.fl } = t)

/-- R121 to R123: JMP always jumps, JEQ when E is 1, JNE when E is 0; a branch not taken falls through; a branch writes
only `pc`. -/
def Obligations.BranchesSetOnlyPc : Prop :=
  ∀ (n : Reg) (s : State),
    SetsOnlyPc (.jmp n) s ((s.reg n).setWidth 9) ∧
    SetsOnlyPc (.jeq n) s (if flagE s.fl = true then (s.reg n).setWidth 9 else s.pc + 2) ∧
    SetsOnlyPc (.jne n) s (if flagE s.fl = true then s.pc + 2 else (s.reg n).setWidth 9)

/-- R124: every branch and CALL goes to the 8-bit register value as an absolute address, unchecked; the instruction after a
taken branch is not executed; a branch writes only `pc`; a target of 254 or 255 faults at the next tick's fetch. That CALL R7
goes to the value before the push is decision D7 (R136; log entry 10); that the fault reports address 256 is R73 with decision
D4 (log entry 8), and that it keeps `pc` is decision D9 (R156; log entry 11). -/
def Obligations.BranchTargetIsTheRegister : Prop :=
  ∀ (i : Instr) (n : Reg) (s : State),
    (i = .jmp n ∨ (i = .jeq n ∧ flagE s.fl = true) ∨ (i = .jne n ∧ flagE s.fl = false) ∨ i = .call n) →
    ∃ t, exec i s = .next t ∧ t.pc.toNat = (s.reg n).toNat ∧
      (i ≠ .call n → t = { s with pc := t.pc }) ∧
      (s.status = .running → 254 ≤ (s.reg n).toNat → step t = .next (t.stoppedBy .faultBounds (.bounds 256)))

/-- R82: which instructions jump and which fall through. A jump sets `pc` to the 8-bit target (RET's is the popped byte,
R137, read at address 0 when R7 holds 0, since a pop initialises nothing: R133, decision D6, log entry 9; CALL R7's is the
value before the push, decision D7, log entry 10). A fall-through adds the instruction's length (R78), HLT too (R81, decision
D9, log entry 11), and a DIV by zero keeps `pc` (R156, decision D9). -/
def Obligations.PcJumpsOrFallsThrough : Prop :=
  ∀ (i : Instr) (s t : State), exec i s = .next t →
    match i with
    | .jmp n | .call n => t.pc = (s.reg n).setWidth 9
    | .ret => t.pc = (s.mem.read (s.reg 7).toNat).setWidth 9
    | .jeq n => t.pc = if flagE s.fl = true then (s.reg n).setWidth 9 else s.pc + 2
    | .jne n => t.pc = if flagE s.fl = true then s.pc + 2 else (s.reg n).setWidth 9
    | .div _ b => t.pc = (if s.reg b = 0 then s.pc else s.pc + 3) ∧ (s.reg b = 0 → t.status = .faultArith)
    | .ldi _ _ | .ld _ _ | .st _ _ | .add _ _ | .sub _ _ | .mul _ _ | .and _ _ | .cmp _ _ => t.pc = s.pc + 3
    | .prn _ | .pra _ | .inc _ | .dec _ | .push _ | .pop _ => t.pc = s.pc + 2
    | .hlt => t.pc = s.pc + 1

/-- R78: from `pc <= 253` a fall-through gives `pc + 1 + op[7:6]` without wrap, at most 256 (nine bits: decision D3, log
entry 4). -/
def Obligations.FallThroughNeverWraps : Prop :=
  ∀ (m : Mnemonic) (s : State), s.pc.toNat ≤ 253 →
    (s.advance m).pc.toNat = s.pc.toNat + 1 + (opc m).toNat / 64 ∧ (s.advance m).pc.toNat ≤ 256

/-- R15: the only reader of `pc` other than fetch is CALL: what any other instruction leaves in the registers, FL, memory,
console and run state does not depend on `pc`. -/
def Obligations.PcIsReadOnlyByCall : Prop :=
  ∀ (i : Instr) (s t : State) (p : Pc), (∀ n, i ≠ .call n) → exec i s = .next t →
    ∃ t', exec i { s with pc := p } = .next t' ∧ t'.regs = t.regs ∧ t'.fl = t.fl ∧ t'.mem = t.mem ∧
      t'.console = t.console ∧ t'.status = t.status

/-- R79: a JMP to its own address is still a jump: the state comes back unchanged, however many ticks follow. -/
def Obligations.JumpToItselfLoopsForEver : Prop :=
  ∀ (s : State) (n : Reg), s.status = .running → s.pc.toNat ≤ 253 → decode s.bytesAtPc = .ok (.jmp n) →
    (s.reg n).toNat = s.pc.toNat → ∀ k, Host.Core.run core k s = .next s

/-! ## Stack and subroutine -/

/-- R131, R133: the pointer a push stores at: one below R7 modulo 256, or 0xF3 when R7 holds 0 (decision D6, log entry 9). -/
def Obligations.PushPointerIsLazilyInitialised : Prop :=
  ∀ s : State, (s.reg 7 = 0 → s.pushPointer = 0xF3) ∧
    (s.reg 7 ≠ 0 → s.pushPointer.toNat = (s.reg 7).toNat - 1)

/-- R134: PUSH stores the value R`n` held before (R7 too: decision D7, log entry 10) at the new R7 (0xF3 when R7 held 0:
decision D6, log entry 9), and keeps all else. -/
def Obligations.PushStoresBelowTheTop : Prop :=
  ∀ (n : Reg) (s : State), ∃ t, exec (.push n) s = .next t ∧
    (s.mem.wf → t.mem.read s.pushPointer.toNat = s.reg n) ∧ t.reg 7 = s.pushPointer ∧ t.pc = s.pc + 2 ∧
    RegsKept s t [7] ∧ CellsKept s t [s.pushPointer.toNat] ∧ RestKept s t

/-- R132: a pop reads the cell R7 names, then increments R7 modulo 256; it initialises nothing (decision D6,
log entry 9) and erases nothing. -/
def Obligations.PopReadsThenIncrements : Prop :=
  ∀ s : State, ∃ t, s.pop = .ok (s.mem.read (s.reg 7).toNat, t) ∧
    (t.reg 7).toNat = ((s.reg 7).toNat + 1) % 256 ∧ t = { s with regs := t.regs } ∧ RegsKept s t [7]

/-- R135: POP writes the popped byte to R`n` after R7's increment, so POP R7 ends with the byte (decision D7, log entry
10); R7 is not initialised (decision D6, log entry 9). -/
def Obligations.PopWritesItsDestinationLast : Prop :=
  ∀ (n : Reg) (s : State), ∃ t, exec (.pop n) s = .next t ∧ t.reg n = s.mem.read (s.reg 7).toNat ∧
    (n ≠ 7 → (t.reg 7).toNat = ((s.reg 7).toNat + 1) % 256) ∧ t.pc = s.pc + 2 ∧
    RegsKept s t [7, n] ∧ CellsKept s t [] ∧ RestKept s t

/-- R136: CALL pushes the address of the next instruction and goes to the value R`n` held before (R7 too: decision D7, log
entry 10); a push that finds R7 at 0 stores at 0xF3 (decision D6, log entry 9). -/
def Obligations.CallPushesTheReturnAddress : Prop :=
  ∀ (n : Reg) (s : State), ∃ t, exec (.call n) s = .next t ∧
    (s.mem.wf → s.pc.toNat ≤ 253 → (t.mem.read s.pushPointer.toNat).toNat = s.pc.toNat + 2) ∧
    t.reg 7 = s.pushPointer ∧ t.pc = (s.reg n).setWidth 9 ∧
    RegsKept s t [7] ∧ CellsKept s t [s.pushPointer.toNat] ∧ RestKept s t

/-- R137: RET pops the byte on top of the stack directly into `pc`, and writes no register but R7, which is not
initialised (decision D6, log entry 9). -/
def Obligations.RetPopsIntoPc : Prop :=
  ∀ s : State, ∃ t, exec .ret s = .next t ∧ t.pc = (s.mem.read (s.reg 7).toNat).setWidth 9 ∧
    (t.reg 7).toNat = ((s.reg 7).toNat + 1) % 256 ∧
    RegsKept s t [7] ∧ CellsKept s t [] ∧ RestKept s t

/-- R135's property: PUSH then POP to another register carries the value and restores the depth; a push that found R7 at 0
leaves the pair at 0xF4 (decision D6, log entry 9). That PUSH R7 carries the value R7 held before is decision D7 (R76, R134; log
entry 10). -/
def Obligations.PushThenPopCarriesTheValue : Prop :=
  ∀ (n d : Reg) (s : State), s.mem.wf → d ≠ 7 → ∃ t u,
    exec (.push n) s = .next t ∧ exec (.pop d) t = .next u ∧ u.reg d = s.reg n ∧
    u.reg 7 = (if s.reg 7 = 0 then 0xF4 else s.reg 7) ∧ RegsKept s u [d, 7] ∧ u.pc = s.pc + 4

/-- R137's property: CALL at `p` and then RET restores `pc` to `p + 2` and the depth of the stack (with the remark on R7 =
0 of decision D6, log entry 9). -/
def Obligations.CallThenRetReturns : Prop :=
  ∀ (n : Reg) (s : State), s.mem.wf → s.pc.toNat ≤ 253 → ∃ t u,
    exec (.call n) s = .next t ∧ exec .ret t = .next u ∧ u.pc.toNat = s.pc.toNat + 2 ∧
    u.reg 7 = (if s.reg 7 = 0 then 0xF4 else s.reg 7) ∧ RegsKept s u [7]

/-- R130 to R133: the bytes below the top behave as a stack of bytes. Pushes that do not run past address 0 come off in
reverse order, and the pointer comes back to where the first push found it (0xF4 when it found 0: decision D6, log entry
9), every register but R7 and every cell at or above the pointer being kept. -/
def Obligations.StackIsLastInFirstOut : Prop :=
  ∀ (s : State) (vs : List Byte) (base : Byte), s.mem.wf → base = (if s.reg 7 = 0 then 0xF4 else s.reg 7) →
    vs ≠ [] → vs.length ≤ base.toNat → ∃ t u,
      s.pushAll vs = .ok t ∧ (t.reg 7).toNat = base.toNat - vs.length ∧
      t.popAll vs.length = .ok (vs.reverse, u) ∧ u.reg 7 = base ∧ RegsKept s u [7] ∧
      ∀ a, a < base.toNat - vs.length ∨ base.toNat ≤ a → u.mem.read a = s.mem.read a

/-! ## Halt, and what no tick reads -/

/-- R145: HLT stops the core as a normal halt and falls through (decision D9, log entry 11); `fault_info` is not written. -/
def Obligations.HltHaltsPastItself : Prop :=
  ∀ s : State, exec .hlt s = .next { s with status := .halted, pc := s.pc + 1 }

/-- The fault record is for the host alone: no tick reads it, so its unspecified content before a fault (log entry 2)
influences nothing (R10, R21). -/
def Obligations.FaultRecordIsNeverRead : Prop :=
  ∀ (s t : State) (x : FaultInfo), step s = .next t →
    ∃ t', step { s with faultInfo := x } = .next t' ∧ { t' with faultInfo := t.faultInfo } = t

/-- A table word placed where the tick fetches is what the next tick runs (the model's own placing, log entry 6). -/
def Obligations.PlacedWordRunsNext : Prop :=
  ∀ (s : State) (nbits w : Nat) (i : Instr), s.mem.wf → s.status = .running → s.pc.toNat ≤ 253 →
    decodeTableWord nbits w = some i → step (s.withFetchWord nbits w) = exec i (s.withFetchWord nbits w)
end

