-- ==== Sys2Proof/Laws/State.lean ====
section
/-! SUPPORT. One lemma per field per update of the state, so that no later proof unfolds a record update; reading a
register after each update; the length of each instruction. -/

namespace Sys2Proof.Machine

variable (s : State)

/-! ## setReg -/

@[simp] theorem setReg_regs (r : Reg) (v : Byte) : (s.setReg r v).regs = s.regs.set r v := rfl
@[simp] theorem setReg_pc (r : Reg) (v : Byte) : (s.setReg r v).pc = s.pc := rfl
@[simp] theorem setReg_fl (r : Reg) (v : Byte) : (s.setReg r v).fl = s.fl := rfl
@[simp] theorem setReg_status (r : Reg) (v : Byte) : (s.setReg r v).status = s.status := rfl
@[simp] theorem setReg_faultInfo (r : Reg) (v : Byte) : (s.setReg r v).faultInfo = s.faultInfo := rfl
@[simp] theorem setReg_mem (r : Reg) (v : Byte) : (s.setReg r v).mem = s.mem := rfl
@[simp] theorem setReg_console (r : Reg) (v : Byte) : (s.setReg r v).console = s.console := rfl

/-! ## setMem -/

@[simp] theorem setMem_regs (m : Memory) : (s.setMem m).regs = s.regs := rfl
@[simp] theorem setMem_pc (m : Memory) : (s.setMem m).pc = s.pc := rfl
@[simp] theorem setMem_fl (m : Memory) : (s.setMem m).fl = s.fl := rfl
@[simp] theorem setMem_status (m : Memory) : (s.setMem m).status = s.status := rfl
@[simp] theorem setMem_faultInfo (m : Memory) : (s.setMem m).faultInfo = s.faultInfo := rfl
@[simp] theorem setMem_mem (m : Memory) : (s.setMem m).mem = m := rfl
@[simp] theorem setMem_console (m : Memory) : (s.setMem m).console = s.console := rfl

/-! ## setFl -/

@[simp] theorem setFl_regs (v : Byte) : (s.setFl v).regs = s.regs := rfl
@[simp] theorem setFl_pc (v : Byte) : (s.setFl v).pc = s.pc := rfl
@[simp] theorem setFl_fl (v : Byte) : (s.setFl v).fl = v := rfl
@[simp] theorem setFl_status (v : Byte) : (s.setFl v).status = s.status := rfl
@[simp] theorem setFl_faultInfo (v : Byte) : (s.setFl v).faultInfo = s.faultInfo := rfl
@[simp] theorem setFl_mem (v : Byte) : (s.setFl v).mem = s.mem := rfl
@[simp] theorem setFl_console (v : Byte) : (s.setFl v).console = s.console := rfl

/-! ## advance -/

@[simp] theorem advance_regs (m : Mnemonic) : (s.advance m).regs = s.regs := rfl
@[simp] theorem advance_pc (m : Mnemonic) : (s.advance m).pc = s.pc + BitVec.ofNat Config.pcWidth (1 + operandCount (opc m)) := rfl
@[simp] theorem advance_fl (m : Mnemonic) : (s.advance m).fl = s.fl := rfl
@[simp] theorem advance_status (m : Mnemonic) : (s.advance m).status = s.status := rfl
@[simp] theorem advance_faultInfo (m : Mnemonic) : (s.advance m).faultInfo = s.faultInfo := rfl
@[simp] theorem advance_mem (m : Mnemonic) : (s.advance m).mem = s.mem := rfl
@[simp] theorem advance_console (m : Mnemonic) : (s.advance m).console = s.console := rfl

/-! ## jump -/

@[simp] theorem jump_regs (v : Byte) : (s.jump v).regs = s.regs := rfl
@[simp] theorem jump_pc (v : Byte) : (s.jump v).pc = zext9 v := rfl
@[simp] theorem jump_fl (v : Byte) : (s.jump v).fl = s.fl := rfl
@[simp] theorem jump_status (v : Byte) : (s.jump v).status = s.status := rfl
@[simp] theorem jump_faultInfo (v : Byte) : (s.jump v).faultInfo = s.faultInfo := rfl
@[simp] theorem jump_mem (v : Byte) : (s.jump v).mem = s.mem := rfl
@[simp] theorem jump_console (v : Byte) : (s.jump v).console = s.console := rfl

/-! ## emit -/

@[simp] theorem emit_regs (k : EventKind) (v : Byte) : (s.emit k v).regs = s.regs := rfl
@[simp] theorem emit_pc (k : EventKind) (v : Byte) : (s.emit k v).pc = s.pc := rfl
@[simp] theorem emit_fl (k : EventKind) (v : Byte) : (s.emit k v).fl = s.fl := rfl
@[simp] theorem emit_status (k : EventKind) (v : Byte) : (s.emit k v).status = s.status := rfl
@[simp] theorem emit_faultInfo (k : EventKind) (v : Byte) : (s.emit k v).faultInfo = s.faultInfo := rfl
@[simp] theorem emit_mem (k : EventKind) (v : Byte) : (s.emit k v).mem = s.mem := rfl
@[simp] theorem emit_console (k : EventKind) (v : Byte) : (s.emit k v).console = s.console ++ [⟨k, v⟩] := rfl

/-! ## halt -/

@[simp] theorem halt_regs : s.halt.regs = s.regs := rfl
@[simp] theorem halt_pc : s.halt.pc = s.pc := rfl
@[simp] theorem halt_fl : s.halt.fl = s.fl := rfl
@[simp] theorem halt_status : s.halt.status = .halted := rfl
@[simp] theorem halt_faultInfo : s.halt.faultInfo = s.faultInfo := rfl
@[simp] theorem halt_mem : s.halt.mem = s.mem := rfl
@[simp] theorem halt_console : s.halt.console = s.console := rfl

/-! ## raise -/

@[simp] theorem raise_regs (e : FatalError) : (s.raise e).regs = s.regs := rfl
@[simp] theorem raise_pc (e : FatalError) : (s.raise e).pc = s.pc := rfl
@[simp] theorem raise_fl (e : FatalError) : (s.raise e).fl = s.fl := rfl
@[simp] theorem raise_status (e : FatalError) : (s.raise e).status = e.status := rfl
@[simp] theorem raise_faultInfo (e : FatalError) : (s.raise e).faultInfo = .report e := rfl
@[simp] theorem raise_mem (e : FatalError) : (s.raise e).mem = s.mem := rfl
@[simp] theorem raise_console (e : FatalError) : (s.raise e).console = s.console := rfl

/-! ## Reading a register after an update -/

@[simp] theorem reg_setReg_same (r : Reg) (v : Byte) : (s.setReg r v).reg r = v := by
  simp [State.reg]

theorem reg_setReg_other {r q : Reg} (v : Byte) (h : q ≠ r) : (s.setReg r v).reg q = s.reg q := by
  have h' : (r : Nat) ≠ q := fun e => h (Fin.ext e.symm)
  simp [State.reg, h']

theorem reg_setReg (r q : Reg) (v : Byte) : (s.setReg r v).reg q = if q = r then v else s.reg q := by
  split
  · next h => subst h; exact reg_setReg_same s q v
  · next h => exact reg_setReg_other s v h

@[simp] theorem reg_setFl (v : Byte) (r : Reg) : (s.setFl v).reg r = s.reg r := rfl
@[simp] theorem reg_advance (m : Mnemonic) (r : Reg) : (s.advance m).reg r = s.reg r := rfl
@[simp] theorem reg_jump (v : Byte) (r : Reg) : (s.jump v).reg r = s.reg r := rfl
@[simp] theorem reg_emit (k : EventKind) (v : Byte) (r : Reg) : (s.emit k v).reg r = s.reg r := rfl
@[simp] theorem reg_halt (r : Reg) : s.halt.reg r = s.reg r := rfl
@[simp] theorem reg_raise (e : FatalError) (r : Reg) : (s.raise e).reg r = s.reg r := rfl
@[simp] theorem reg_setMem (m : Memory) (r : Reg) : (s.setMem m).reg r = s.reg r := rfl

/-- SP is R7 (R12). -/
@[simp] theorem sp_eq : sp = 7 := rfl

/-! ## The operand count of each opcode (R52, R56 (b)) -/

@[simp] theorem operandCount_ldi : operandCount (opc .ldi) = 2 := by decide
@[simp] theorem operandCount_ld : operandCount (opc .ld) = 2 := by decide
@[simp] theorem operandCount_st : operandCount (opc .st) = 2 := by decide
@[simp] theorem operandCount_add : operandCount (opc .add) = 2 := by decide
@[simp] theorem operandCount_sub : operandCount (opc .sub) = 2 := by decide
@[simp] theorem operandCount_mul : operandCount (opc .mul) = 2 := by decide
@[simp] theorem operandCount_div : operandCount (opc .div) = 2 := by decide
@[simp] theorem operandCount_and : operandCount (opc .and) = 2 := by decide
@[simp] theorem operandCount_cmp : operandCount (opc .cmp) = 2 := by decide
@[simp] theorem operandCount_prn : operandCount (opc .prn) = 1 := by decide
@[simp] theorem operandCount_pra : operandCount (opc .pra) = 1 := by decide
@[simp] theorem operandCount_inc : operandCount (opc .inc) = 1 := by decide
@[simp] theorem operandCount_dec : operandCount (opc .dec) = 1 := by decide
@[simp] theorem operandCount_jmp : operandCount (opc .jmp) = 1 := by decide
@[simp] theorem operandCount_jeq : operandCount (opc .jeq) = 1 := by decide
@[simp] theorem operandCount_jne : operandCount (opc .jne) = 1 := by decide
@[simp] theorem operandCount_push : operandCount (opc .push) = 1 := by decide
@[simp] theorem operandCount_pop : operandCount (opc .pop) = 1 := by decide
@[simp] theorem operandCount_call : operandCount (opc .call) = 1 := by decide
@[simp] theorem operandCount_ret : operandCount (opc .ret) = 0 := by decide
@[simp] theorem operandCount_hlt : operandCount (opc .hlt) = 0 := by decide

/-- The operand count is the opcode byte divided by 64. -/
theorem operandCount_eq_div (op : Byte) : operandCount op = op.toNat / 64 := by
  have h : op.toNat < 256 := op.isLt
  simp only [operandCount, BitVec.extractLsb'_toNat, Nat.shiftRight_eq_div_pow]
  omega

end Sys2Proof.Machine
end

