-- ==== Sys2Proof/Laws/Decode.lean ====
section
/-! SUPPORT. The pieces of the decoder and encoder: register bytes, the opcode lookup, the fixed assignment. -/

namespace Sys2Proof

/-- `Mnemonic.all` lists every mnemonic. -/
theorem mem_all (m : Mnemonic) : m ∈ Mnemonic.all := by
  cases m <;> decide

/-- The spec's assignment meets the constraints of R56. -/
theorem opc_wellFormed : OpcWellFormed opc := by
  refine ⟨by decide, by decide, by decide⟩

/-- A distinct assignment is injective (R56 (a)). -/
theorem opcDistinct_injective {o : Mnemonic → Byte} (h : OpcDistinct o) {m k : Mnemonic} (e : o m = o k) : m = k :=
  List.inj_on_of_nodup_map h (mem_all m) (mem_all k) e

/-- A register index read from its own operand byte. -/
@[simp] theorem regIndex_regByte (r : Reg) : regIndex (regByte r) = some r := by
  have h : r.val < 8 := r.isLt
  have e : (regByte r).toNat = r.val := by
    rw [regByte, BitVec.toNat_ofNat]
    omega
  simp [regIndex, e]

/-- A register index is read exactly from a byte 0 to 7, and it is the byte's value (R53). -/
theorem regIndex_eq_some {v : Byte} {r : Reg} : regIndex v = some r ↔ v = regByte r := by
  constructor
  · intro h
    unfold regIndex at h
    split at h
    · next hv =>
      cases Option.some.inj h
      apply BitVec.eq_of_toNat_eq
      simp [regByte]
    · cases h
  · rintro rfl
    exact regIndex_regByte r

/-- A byte above 7 is no register index (R53). -/
theorem regIndex_eq_none {v : Byte} : regIndex v = none ↔ 7 < v.toNat := by
  unfold regIndex
  split <;> simp <;> omega

/-- The lookup answers the mnemonic whose byte it is. -/
theorem lookupOpcode_sound {o : Mnemonic → Byte} {op : Byte} {m : Mnemonic} (h : lookupOpcode o op = some m) :
    o m = op := by
  simpa using List.find?_some h

/-- Under a distinct assignment the lookup finds every opcode byte (R62). -/
theorem lookupOpcode_opc {o : Mnemonic → Byte} (h : OpcDistinct o) (m : Mnemonic) : lookupOpcode o (o m) = some m := by
  cases e : lookupOpcode o (o m) with
  | none => simpa using List.find?_eq_none.mp e m (mem_all m)
  | some k => rw [opcDistinct_injective h (lookupOpcode_sound e)]

/-- The lookup finds nothing exactly when the byte is no opcode (R57). -/
theorem lookupOpcode_eq_none {o : Mnemonic → Byte} {op : Byte} : lookupOpcode o op = none ↔ ∀ m, o m ≠ op := by
  simp only [lookupOpcode, List.find?_eq_none, beq_iff_eq]
  exact ⟨fun h m => h m (mem_all m), fun h m _ => h m⟩

end Sys2Proof
end

