-- ==== Sys2Proof/Laws/Memory.lean ====
section
/-! SUPPORT. The laws of memory: a read after a write, and the canonical form, which every memory operation keeps. -/

namespace Sys2Proof.Machine

@[simp] theorem read_nil (a : Nat) : Memory.read [] a = Memory.unlisted := rfl

theorem read_cons (k : Nat) (w : Byte) (m : Memory) (a : Nat) :
    Memory.read ((k, w) :: m) a = if k = a then w else Memory.read m a := rfl

/-- An address that no entry lists reads as unlisted. -/
theorem read_of_not_listed {m : Memory} {a : Nat} (h : ∀ c ∈ m, c.1 ≠ a) : Memory.read m a = Memory.unlisted := by
  induction m with
  | nil => rfl
  | cons c m ih =>
    obtain ⟨k, w⟩ := c
    rw [read_cons, if_neg (h (k, w) (by simp))]
    exact ih fun c hc => h c (by simp [hc])

/-- The bounds and values of the entries of a canonical memory pass to its tail. -/
theorem wf_tail {c : Host.Cell} {m : Memory} (h : Memory.wf (c :: m)) : Memory.wf m :=
  ⟨(List.pairwise_cons.mp h.1).2, fun d hd => h.2 d (List.mem_cons_of_mem _ hd)⟩

/-- In a canonical memory the addresses after the head are above the head's. -/
theorem wf_head_lt {c : Host.Cell} {m : Memory} (h : Memory.wf (c :: m)) : ∀ d ∈ m, c.1 < d.1 :=
  (List.pairwise_cons.mp h.1).1

/-- Below the head of a canonical memory nothing is listed. -/
theorem read_below_head {k : Nat} {w : Byte} {m : Memory} (h : Memory.wf ((k, w) :: m)) {a : Nat} (ha : a < k) :
    Memory.read ((k, w) :: m) a = Memory.unlisted := by
  refine read_of_not_listed fun c hc => ?_
  rcases List.mem_cons.mp hc with rfl | hc
  · exact Nat.ne_of_gt ha
  · exact Nat.ne_of_gt (Nat.lt_trans ha (wf_head_lt h c hc))

theorem read_put_same {m : Memory} {a : Nat} {v : Byte} (h : ∀ c ∈ m, c.1 ≠ a) :
    Memory.read (Memory.put a v m) a = v := by
  unfold Memory.put
  split
  · next hv => rw [hv]; exact read_of_not_listed h
  · simp [read_cons]

theorem read_put_other {m : Memory} {a b : Nat} {v : Byte} (hb : b ≠ a) :
    Memory.read (Memory.put a v m) b = Memory.read m b := by
  unfold Memory.put
  split
  · rfl
  · rw [read_cons, if_neg (Ne.symm hb)]

/-- A read after a write of another cell is the read before it. -/
theorem read_write_other (m : Memory) {a b : Nat} (v : Byte) (hb : b ≠ a) :
    Memory.read (Memory.write m a v) b = Memory.read m b := by
  induction m with
  | nil => exact read_put_other hb
  | cons c m ih =>
    obtain ⟨k, w⟩ := c
    unfold Memory.write
    split
    · rw [read_cons, read_cons, ih]
    · split
      · next h => rw [read_put_other hb, read_cons, if_neg (by omega)]
      · exact read_put_other hb

/-- A read after a write of the same cell gives the byte written. -/
theorem read_write_same {m : Memory} (h : Memory.wf m) (a : Nat) (v : Byte) :
    Memory.read (Memory.write m a v) a = v := by
  induction m with
  | nil => exact read_put_same (by simp)
  | cons c m ih =>
    obtain ⟨k, w⟩ := c
    unfold Memory.write
    split
    · next hk => rw [read_cons, if_neg (Nat.ne_of_lt hk), ih (wf_tail h)]
    · next hk =>
      split
      · next he =>
        subst he
        exact read_put_same fun d hd => Nat.ne_of_gt (wf_head_lt h d hd)
      · next he =>
        refine read_put_same fun d hd => ?_
        rcases List.mem_cons.mp hd with rfl | hd
        · exact he
        · have := wf_head_lt h d hd
          simp only at this
          omega

/-- What a write can list: an entry of before, or the entry written. -/
theorem mem_write {m : Memory} {a : Nat} {v : Byte} {c : Host.Cell} (hc : c ∈ Memory.write m a v) :
    c ∈ m ∨ (c = (a, v) ∧ v ≠ Memory.unlisted) := by
  have hput : ∀ l : Memory, c ∈ Memory.put a v l → c ∈ l ∨ (c = (a, v) ∧ v ≠ Memory.unlisted) := by
    intro l hl
    unfold Memory.put at hl
    split at hl
    · exact .inl hl
    · next hv =>
      rcases List.mem_cons.mp hl with h | h
      · exact .inr ⟨h, hv⟩
      · exact .inl h
  induction m with
  | nil => exact hput [] hc
  | cons d m ih =>
    obtain ⟨k, w⟩ := d
    unfold Memory.write at hc
    split at hc
    · rcases List.mem_cons.mp hc with h | h
      · exact .inl (h ▸ List.mem_cons_self)
      · exact (ih h).imp_left (List.mem_cons_of_mem _)
    · split at hc
      · exact (hput m hc).imp_left (List.mem_cons_of_mem _)
      · exact hput _ hc

theorem pairwise_put {m : Memory} {a : Nat} {v : Byte} (hm : m.Pairwise (fun c d => c.1 < d.1))
    (ha : ∀ c ∈ m, a < c.1) : (Memory.put a v m).Pairwise (fun c d => c.1 < d.1) := by
  unfold Memory.put
  split
  · exact hm
  · exact List.pairwise_cons.mpr ⟨ha, hm⟩

/-- Every write of a cell of the address space keeps the canonical form. -/
theorem write_wf {m : Memory} (h : Memory.wf m) {a : Nat} (ha : a < Config.memSize) (v : Byte) :
    Memory.wf (Memory.write m a v) := by
  refine ⟨?_, fun c hc => ?_⟩
  · induction m with
    | nil => exact pairwise_put List.Pairwise.nil (by simp)
    | cons d m ih =>
      obtain ⟨k, w⟩ := d
      have hlt := wf_head_lt h
      unfold Memory.write
      split
      · next hk =>
        refine List.pairwise_cons.mpr ⟨fun c hc => ?_, ih (wf_tail h)⟩
        rcases mem_write hc with hc | ⟨rfl, _⟩
        · exact hlt c hc
        · exact hk
      · next hk =>
        split
        · next he => subst he; exact pairwise_put (wf_tail h).1 hlt
        · next he =>
          refine pairwise_put h.1 fun c hc => ?_
          rcases List.mem_cons.mp hc with rfl | hc
          · simp only; omega
          · have := hlt c hc
            simp only at this
            omega
  · rcases mem_write hc with hc | ⟨rfl, hv⟩
    · exact h.2 c hc
    · exact ⟨ha, hv⟩

/-- The memory of the reset state is canonical. -/
theorem reset_mem_wf : State.reset.mem.wf := by decide

end Sys2Proof.Machine
end

