-- ==== Sys2Proof/Laws/Ops.lean ====
section
/-! SUPPORT. What each shared operation can do, said once: the checked accesses, the stack, the host's pokes. -/

namespace Sys2Proof.Machine

/-- The number of values of the program counter's word, as a numeral: `omega` does not look inside the configured width. -/
@[simp] theorem two_pow_pcWidth : 2 ^ Config.pcWidth = 512 := rfl

theorem pc_toNat_lt (p : Pc) : p.toNat < 512 := p.isLt

/-- A sum on the program counter that stays below 512 is the sum of the integers. -/
theorem pc_add_toNat {p : Pc} {k : Nat} (h : p.toNat + k < 512) :
    (p + BitVec.ofNat Config.pcWidth k).toNat = p.toNat + k := by
  simp only [BitVec.toNat_add, BitVec.toNat_ofNat, two_pow_pcWidth]
  omega

/-- FL with one flag set, as the numbers of R17. -/
theorem flE_eq : flE = 0x01 := by decide

theorem flG_eq : flG = 0x02 := by decide

theorem flL_eq : flL = 0x04 := by decide

/-- A data access never leaves the address space: its address is a byte (R33). -/
theorem byte_lt_memSize (v : Byte) : v.toNat < Config.memSize := v.isLt

@[simp] theorem memRead_byte (s : State) (v : Byte) : s.memRead v.toNat = .ok (s.mem.read v.toNat) := by
  rw [State.memRead, if_pos (byte_lt_memSize v)]

@[simp] theorem memWrite_byte (s : State) (v w : Byte) :
    s.memWrite v.toNat w = .ok (s.setMem (s.mem.write v.toNat w)) := by
  rw [State.memWrite, if_pos (byte_lt_memSize v)]

theorem memRead_in_range (s : State) {a : Nat} (h : a < 256) : s.memRead a = .ok (s.mem.read a) :=
  if_pos h

theorem memRead_out_of_range (s : State) {a : Nat} (h : 256 ≤ a) : s.memRead a = .error (.bounds a) :=
  if_neg (by simp only [Config.memSize]; omega)

theorem memWrite_in_range (s : State) {a : Nat} (v : Byte) (h : a < 256) :
    s.memWrite a v = .ok (s.setMem (s.mem.write a v)) :=
  if_pos h

theorem memWrite_out_of_range (s : State) {a : Nat} (v : Byte) (h : 256 ≤ a) :
    s.memWrite a v = .error (.bounds a) :=
  if_neg (by simp only [Config.memSize]; omega)

/-- A checked write that answers a state changed memory alone, and only at its address. -/
theorem memWrite_cases {s t : State} {a : Nat} {v : Byte} (h : s.memWrite a v = .ok t) :
    a < 256 ∧ t = s.setMem (s.mem.write a v) := by
  unfold State.memWrite at h
  split at h
  · next ha => exact ⟨ha, (Except.ok.inj h).symm⟩
  · cases h

@[simp] theorem attempt_ok {α : Type} (s : State) (v : α) (k : α → Host.Outcome State Fault Refusal) :
    s.attempt (.ok v) k = k v := rfl

@[simp] theorem attempt_error {α : Type} (s : State) (e : FatalError) (k : α → Host.Outcome State Fault Refusal) :
    s.attempt (.error e) k = .next (s.raise e) := rfl

/-- `storeAddress` is a byte's value: a store never faults (R33). -/
@[simp] theorem memWrite_storeAddress (s : State) (a : Reg) (w : Byte) :
    s.memWrite (s.storeAddress a) w = .ok (s.setMem (s.mem.write (s.storeAddress a) w)) :=
  memWrite_byte s (s.reg a) w

/-- A push always succeeds, and this is what it does (R131). -/
@[simp] theorem push_eq (s : State) (v : Byte) :
    s.push v = .ok ((s.setReg sp s.pushPointer).setMem (s.mem.write s.pushPointer.toNat v)) :=
  memWrite_byte _ _ _

/-- A pop always succeeds, and this is what it does (R132). -/
@[simp] theorem pop_eq (s : State) :
    s.pop = .ok (s.mem.read s.popPointer.toNat, s.setReg sp (s.popPointer + 1)) := by
  rw [State.pop, memRead_byte]

/-- A pop reads where R7 points (R132). -/
@[simp] theorem popPointer_eq (s : State) : s.popPointer = s.reg 7 := rfl

/-- One above the push pointer is R7, or 0xF4 when R7 holds 0 (R133). -/
@[simp] theorem pushPointer_add_one (s : State) : s.pushPointer + 1 = if s.reg 7 = 0 then stackTop else s.reg 7 :=
  BitVec.sub_add_cancel _ 1

@[simp] theorem zext9_toNat (v : Byte) : (zext9 v).toNat = v.toNat := by
  have h := v.isLt
  simp only [zext9, BitVec.toNat_setWidth, two_pow_pcWidth]
  omega

/-- From `pc <= 253` the return address is `pc + 2` (R136). -/
theorem returnAddress_toNat {s : State} (h : s.pc.toNat ≤ 253) : s.returnAddress.toNat = s.pc.toNat + 2 := by
  have two : (2 : Pc).toNat = 2 := rfl
  simp only [State.returnAddress, BitVec.toNat_setWidth, BitVec.toNat_add, two, two_pow_pcWidth]
  omega

/-- A poke in range changes one cell. -/
theorem pokeInRange_eq (s : State) {a : Nat} (v : Byte) (h : a < 256) :
    s.pokeInRange a v = s.setMem (s.mem.write a v) := by
  rw [State.pokeInRange, State.poke, memWrite_in_range s v h]

/-- A poke out of range changes nothing. -/
theorem pokeInRange_out (s : State) {a : Nat} (v : Byte) (h : 256 ≤ a) : s.pokeInRange a v = s := by
  rw [State.pokeInRange, State.poke, memWrite_out_of_range s v h]

/-! ## What each meaning answers

Each instruction answers one state (DIV and the two conditional branches, one of two), written over the operations. -/

theorem exec_ldi (n : Reg) (imm : Byte) (s : State) :
    exec (.ldi n imm) s = .next ((s.setReg n imm).advance .ldi) := rfl

theorem exec_ld (a b : Reg) (s : State) : exec (.ld a b) s = .next ((s.setReg a (s.reg b)).advance .ld) := rfl

theorem exec_st (a b : Reg) (s : State) :
    exec (.st a b) s = .next ((s.setMem (s.mem.write (s.storeAddress a) (s.reg b))).advance .st) := by
  simp [exec, execSt]

theorem exec_prn (n : Reg) (s : State) : exec (.prn n) s = .next ((s.emit .prn (s.reg n)).advance .prn) := rfl

theorem exec_pra (n : Reg) (s : State) : exec (.pra n) s = .next ((s.emit .pra (s.reg n)).advance .pra) := rfl

theorem exec_inc (n : Reg) (s : State) : exec (.inc n) s = .next ((s.setReg n (s.reg n + 1)).advance .inc) := rfl

theorem exec_dec (n : Reg) (s : State) : exec (.dec n) s = .next ((s.setReg n (s.reg n - 1)).advance .dec) := rfl

theorem exec_add (a b : Reg) (s : State) :
    exec (.add a b) s = .next ((s.setReg a (s.reg a + s.reg b)).advance .add) := rfl

theorem exec_sub (a b : Reg) (s : State) :
    exec (.sub a b) s = .next ((s.setReg a (s.reg a - s.reg b)).advance .sub) := rfl

theorem exec_mul (a b : Reg) (s : State) :
    exec (.mul a b) s = .next ((s.setReg a (s.reg a * s.reg b)).advance .mul) := rfl

theorem exec_div_zero {a b : Reg} {s : State} (h : s.reg b = 0) :
    exec (.div a b) s = .next (s.raise (.arith a b s.pc)) := if_pos h

theorem exec_div_nonzero {a b : Reg} {s : State} (h : s.reg b ≠ 0) :
    exec (.div a b) s = .next ((s.setReg a (s.reg a / s.reg b)).advance .div) := if_neg h

theorem exec_and (a b : Reg) (s : State) :
    exec (.and a b) s = .next ((s.setReg a (s.reg a &&& s.reg b)).advance .and) := rfl

theorem exec_cmp (a b : Reg) (s : State) :
    exec (.cmp a b) s = .next ((s.setFl (compareFlags (s.reg a) (s.reg b))).advance .cmp) := rfl

theorem exec_jmp (n : Reg) (s : State) : exec (.jmp n) s = .next (s.jump (s.reg n)) := rfl

theorem exec_jeq_taken {n : Reg} {s : State} (h : flagE s.fl = true) :
    exec (.jeq n) s = .next (s.jump (s.reg n)) := by
  simp [exec, execJeq, h, State.target]

theorem exec_jeq_not_taken {n : Reg} {s : State} (h : flagE s.fl = false) :
    exec (.jeq n) s = .next (s.advance .jeq) := by
  simp [exec, execJeq, h]

theorem exec_jne_taken {n : Reg} {s : State} (h : flagE s.fl = false) :
    exec (.jne n) s = .next (s.jump (s.reg n)) := by
  simp [exec, execJne, h, State.target]

theorem exec_jne_not_taken {n : Reg} {s : State} (h : flagE s.fl = true) :
    exec (.jne n) s = .next (s.advance .jne) := by
  simp [exec, execJne, h]

theorem exec_push (n : Reg) (s : State) :
    exec (.push n) s = .next (((s.setReg sp s.pushPointer).setMem
      (s.mem.write s.pushPointer.toNat (s.reg n))).advance .push) := by
  simp [exec, execPush]

theorem exec_pop (n : Reg) (s : State) :
    exec (.pop n) s = .next (((s.setReg sp (s.popPointer + 1)).setReg n
      (s.mem.read s.popPointer.toNat)).advance .pop) := by
  simp [exec, execPop]

theorem exec_call (n : Reg) (s : State) :
    exec (.call n) s = .next (((s.setReg sp s.pushPointer).setMem
      (s.mem.write s.pushPointer.toNat s.returnAddress)).jump (s.reg n)) := by
  simp [exec, execCall, State.target]

theorem exec_ret (s : State) :
    exec .ret s = .next ((s.setReg sp (s.popPointer + 1)).jump (s.mem.read s.popPointer.toNat)) := by
  simp [exec, execRet]

theorem exec_hlt (s : State) : exec .hlt s = .next (s.halt.advance .hlt) := rfl

end Sys2Proof.Machine
end

