-- ==== Sys2Proof/Laws/PerInstr.lean ====
section
/-! SUPPORT. Laws of each instruction as syntax, one lemma per constructor. -/

namespace Sys2Proof

/-- The length of an instruction's bytes is `1 + op[7:6]` of its own first byte, and 1, 2 or 3 (R50). -/
def Laws.Length.Statement (i : Instr) : Prop :=
  (encode i).length = 1 + operandCount (opc i.mnemonic) ∧ (encode i).length ≤ 3

theorem Laws.Length.ldi (n : Reg) (imm : Byte) : Laws.Length.Statement (.ldi n imm) := by
  simp [Laws.Length.Statement, encode, encodeWith, operandBytes, Instr.mnemonic]
theorem Laws.Length.ld (a b : Reg) : Laws.Length.Statement (.ld a b) := by
  simp [Laws.Length.Statement, encode, encodeWith, operandBytes, Instr.mnemonic]
theorem Laws.Length.st (a b : Reg) : Laws.Length.Statement (.st a b) := by
  simp [Laws.Length.Statement, encode, encodeWith, operandBytes, Instr.mnemonic]
theorem Laws.Length.prn (n : Reg) : Laws.Length.Statement (.prn n) := by
  simp [Laws.Length.Statement, encode, encodeWith, operandBytes, Instr.mnemonic]
theorem Laws.Length.pra (n : Reg) : Laws.Length.Statement (.pra n) := by
  simp [Laws.Length.Statement, encode, encodeWith, operandBytes, Instr.mnemonic]
theorem Laws.Length.inc (n : Reg) : Laws.Length.Statement (.inc n) := by
  simp [Laws.Length.Statement, encode, encodeWith, operandBytes, Instr.mnemonic]
theorem Laws.Length.dec (n : Reg) : Laws.Length.Statement (.dec n) := by
  simp [Laws.Length.Statement, encode, encodeWith, operandBytes, Instr.mnemonic]
theorem Laws.Length.add (a b : Reg) : Laws.Length.Statement (.add a b) := by
  simp [Laws.Length.Statement, encode, encodeWith, operandBytes, Instr.mnemonic]
theorem Laws.Length.sub (a b : Reg) : Laws.Length.Statement (.sub a b) := by
  simp [Laws.Length.Statement, encode, encodeWith, operandBytes, Instr.mnemonic]
theorem Laws.Length.mul (a b : Reg) : Laws.Length.Statement (.mul a b) := by
  simp [Laws.Length.Statement, encode, encodeWith, operandBytes, Instr.mnemonic]
theorem Laws.Length.div (a b : Reg) : Laws.Length.Statement (.div a b) := by
  simp [Laws.Length.Statement, encode, encodeWith, operandBytes, Instr.mnemonic]
theorem Laws.Length.and (a b : Reg) : Laws.Length.Statement (.and a b) := by
  simp [Laws.Length.Statement, encode, encodeWith, operandBytes, Instr.mnemonic]
theorem Laws.Length.cmp (a b : Reg) : Laws.Length.Statement (.cmp a b) := by
  simp [Laws.Length.Statement, encode, encodeWith, operandBytes, Instr.mnemonic]
theorem Laws.Length.jmp (n : Reg) : Laws.Length.Statement (.jmp n) := by
  simp [Laws.Length.Statement, encode, encodeWith, operandBytes, Instr.mnemonic]
theorem Laws.Length.jeq (n : Reg) : Laws.Length.Statement (.jeq n) := by
  simp [Laws.Length.Statement, encode, encodeWith, operandBytes, Instr.mnemonic]
theorem Laws.Length.jne (n : Reg) : Laws.Length.Statement (.jne n) := by
  simp [Laws.Length.Statement, encode, encodeWith, operandBytes, Instr.mnemonic]
theorem Laws.Length.push (n : Reg) : Laws.Length.Statement (.push n) := by
  simp [Laws.Length.Statement, encode, encodeWith, operandBytes, Instr.mnemonic]
theorem Laws.Length.pop (n : Reg) : Laws.Length.Statement (.pop n) := by
  simp [Laws.Length.Statement, encode, encodeWith, operandBytes, Instr.mnemonic]
theorem Laws.Length.call (n : Reg) : Laws.Length.Statement (.call n) := by
  simp [Laws.Length.Statement, encode, encodeWith, operandBytes, Instr.mnemonic]
theorem Laws.Length.ret : Laws.Length.Statement (.ret) := by
  simp [Laws.Length.Statement, encode, encodeWith, operandBytes, Instr.mnemonic]
theorem Laws.Length.hlt : Laws.Length.Statement (.hlt) := by
  simp [Laws.Length.Statement, encode, encodeWith, operandBytes, Instr.mnemonic]

end Sys2Proof
end

