-- ==== Sys2Proof/Laws/Step.lean ====
section
/-! SUPPORT. What the front end and the tick can do, said once. -/

namespace Sys2Proof.Machine

/-- Up to address 253 the fetch gives the three bytes (R72, R73). -/
theorem fetch_in_range {s : State} (h : s.pc.toNat ≤ 253) : s.fetch = .ok s.bytesAtPc := by
  simp only [State.fetch, State.bytesAtPc]
  rw [memRead_in_range s (by omega), memRead_in_range s (by omega), memRead_in_range s (by omega)]

/-- From 254 to 256 the fetch fails at address 256 (R73). -/
theorem fetch_near_top {s : State} (h : 254 ≤ s.pc.toNat) (h' : s.pc.toNat ≤ 256) :
    s.fetch = .error (.bounds 256) := by
  simp only [State.fetch]
  obtain e | e | e : s.pc.toNat = 254 ∨ s.pc.toNat = 255 ∨ s.pc.toNat = 256 := by omega
  all_goals simp only [e]
  · rw [memRead_in_range s (by omega), memRead_in_range s (by omega), memRead_out_of_range s (by omega)]
  · rw [memRead_in_range s (by omega), memRead_out_of_range s (by omega)]
  · rw [memRead_out_of_range s (by omega)]

/-- Above 256, which no run reaches, the fetch fails at `pc` itself. -/
theorem fetch_above {s : State} (h : 256 ≤ s.pc.toNat) : s.fetch = .error (.bounds s.pc.toNat) := by
  rw [State.fetch, memRead_out_of_range s h]

theorem fetchInstr_of_decode {s : State} {i : Instr} (h : s.pc.toNat ≤ 253) (hd : decode s.bytesAtPc = .ok i) :
    s.fetchInstr = .ok i := by
  rw [State.fetchInstr, fetch_in_range h]
  simp only [hd]

theorem fetchInstr_of_decode_error {s : State} {e : DecodeError} (h : s.pc.toNat ≤ 253)
    (hd : decode s.bytesAtPc = .error e) : s.fetchInstr = .error (s.decodeFault s.bytesAtPc e) := by
  rw [State.fetchInstr, fetch_in_range h]
  simp only [hd]

/-- Everything the front end can answer. -/
theorem fetchInstr_cases (s : State) :
    (∃ i, s.pc.toNat ≤ 253 ∧ decode s.bytesAtPc = .ok i ∧ s.fetchInstr = .ok i) ∨
    (∃ e, s.pc.toNat ≤ 253 ∧ decode s.bytesAtPc = .error e ∧
      s.fetchInstr = .error (s.decodeFault s.bytesAtPc e)) ∨
    (∃ a, 254 ≤ s.pc.toNat ∧ (s.pc.toNat ≤ 256 → a = 256) ∧ s.fetchInstr = .error (.bounds a)) := by
  by_cases h : s.pc.toNat ≤ 253
  · cases hd : decode s.bytesAtPc with
    | ok i => exact .inl ⟨i, h, rfl, fetchInstr_of_decode h hd⟩
    | error e => exact .inr (.inl ⟨e, h, rfl, fetchInstr_of_decode_error h hd⟩)
  · refine .inr (.inr ?_)
    by_cases h' : s.pc.toNat ≤ 256
    · exact ⟨256, by omega, fun _ => rfl, by rw [State.fetchInstr, fetch_near_top (by omega) h']⟩
    · exact ⟨s.pc.toNat, by omega, fun h'' => absurd h'' h', by rw [State.fetchInstr, fetch_above (by omega)]⟩

/-- Everything a tick can do. -/
theorem step_cases {s t : State} (h : step s = .next t) :
    (s.status ≠ .running ∧ t = s) ∨
    (s.status = .running ∧ ∃ e, s.fetchInstr = .error e ∧ t = s.raise e) ∨
    (s.status = .running ∧ ∃ i, s.fetchInstr = .ok i ∧ exec i s = .next t) := by
  unfold step at h
  split at h
  · next hr =>
    cases hf : s.fetchInstr with
    | ok i =>
      simp only [hf] at h
      exact .inr (.inr ⟨hr, i, rfl, h⟩)
    | error e =>
      simp only [hf, Host.Outcome.next.injEq] at h
      exact .inr (.inl ⟨hr, e, rfl, h.symm⟩)
  · next hr => exact .inl ⟨hr, (Host.Outcome.next.inj h).symm⟩

/-- One tick of a run. -/
theorem run_succ {s t : State} (h : step s = .next t) (k : Nat) :
    Host.Core.run core (k + 1) s = Host.Core.run core k t := by
  have h' : Host.Core.step core s = .next t := h
  simp only [Host.Core.run, h']

end Sys2Proof.Machine
end

