-- ==== Sys2Proof/Tests/Slice0.lean ====
section
/-! SUPPORT. The model's own tests. Expected results are those of the examples of spec/41 to 46 and of the vectors of
spec/95_test_vectors.md, named beside each test. Then, for every statement with hypotheses, a state that meets them. -/

namespace Sys2Proof.Tests

open Sys2Proof Sys2Proof.Machine

/-- The reset state with bytes poked from address `p` and `pc = p`. -/
def placed (p : Nat) (bytes : List Byte) : State :=
  match State.reset.load p bytes with
  | .ok t => { t with pc := BitVec.ofNat 9 p }
  | .error _ => State.reset

/-- Something read off the state after one tick. -/
def after {α : Type} (s : State) (f : State → α) : Option α :=
  match step s with
  | .next t => some (f t)
  | .fault _ => none
  | .refused _ => none

/-! ## WellFormed: an ill-formed term for each check -/

/-- R56 (a): two instructions with one byte. -/
theorem test_opc_repeated_refused : ¬ OpcDistinct (fun m => if m = .ld then 0x99 else opc m) := by decide

/-- R56 (b): HLT with a byte whose count field is 1. -/
theorem test_opc_count_refused : ¬ OpcCountsOperands (fun m => if m = .hlt then 0x41 else opc m) := by decide

/-- R56 (c): 0xFF assigned. -/
theorem test_opc_ff_refused : ¬ OpcLeavesFF (fun m => if m = .hlt then 0xFF else opc m) := by decide

/-- R57: the document's unknown byte (E7). -/
theorem test_opcode_refused : ¬ Fetched.OpcodeKnown opc ⟨0xFF, 0, 0⟩ := by decide

/-- R53: operand A 8 (X4). -/
theorem test_operandA_refused : ¬ Fetched.OperandAOk opc ⟨0x99, 0x08, 0x01⟩ := by decide

/-- R53: operand B 9 (X5). -/
theorem test_operandB_refused : ¬ Fetched.OperandBOk opc ⟨0xA8, 0x00, 0x09⟩ := by decide

/-- R54: the immediate of LDI is no index (X8). -/
theorem test_immediate_accepted : Fetched.WellFormed opc ⟨0x99, 0x00, 0xFF⟩ := by decide

/-! ## Decoding: the encodings of spec/41 to 46, bit by bit -/

theorem test_decode_load_store :
    decode ⟨0b10011001, 0b00000000, 0b00001000⟩ = .ok (.ldi 0 8) ∧
    decode ⟨0b10011000, 0b00000010, 0b00000000⟩ = .ok (.ld 2 0) ∧
    decode ⟨0b10011010, 0b00000100, 0b00000001⟩ = .ok (.st 4 1) := by decide

theorem test_decode_console :
    decode ⟨0b01000011, 0b00000000, 0b10000000⟩ = .ok (.prn 0) ∧
    decode ⟨0b01000010, 0b00000001, 0b11111111⟩ = .ok (.pra 1) := by decide

theorem test_decode_alu :
    decode ⟨0b01111000, 0b00000011, 0⟩ = .ok (.inc 3) ∧
    decode ⟨0b01111001, 0b00000111, 0⟩ = .ok (.dec 7) ∧
    decode ⟨0b10101000, 0b00000000, 0b00000001⟩ = .ok (.add 0 1) ∧
    decode ⟨0b10101001, 0b00000010, 0b00000011⟩ = .ok (.sub 2 3) ∧
    decode ⟨0b10101010, 0b00000010, 0b00000001⟩ = .ok (.mul 2 1) ∧
    decode ⟨0b10101011, 0b00000000, 0b00000010⟩ = .ok (.div 0 2) ∧
    decode ⟨0b10110011, 0b00000101, 0b00000110⟩ = .ok (.and 5 6) := by decide

theorem test_decode_compare_branch :
    decode ⟨0b10100000, 0b00000000, 0b00000010⟩ = .ok (.cmp 0 2) ∧
    decode ⟨0b01010000, 0b00000011, 0⟩ = .ok (.jmp 3) ∧
    decode ⟨0b01010001, 0b00000011, 0⟩ = .ok (.jeq 3) ∧
    decode ⟨0b01010010, 0b00000011, 0⟩ = .ok (.jne 3) := by decide

theorem test_decode_stack :
    decode ⟨0b01001101, 0b00000000, 0⟩ = .ok (.push 0) ∧
    decode ⟨0b01001100, 0b00000001, 0⟩ = .ok (.pop 1) ∧
    decode ⟨0b01001000, 0b00000011, 0⟩ = .ok (.call 3) ∧
    decode ⟨0b00001001, 0b11111111, 0b11111111⟩ = .ok .ret := by decide

theorem test_decode_halt : decode ⟨0b00000001, 0b11111111, 0b11111111⟩ = .ok .hlt := by decide

/-- X6, 0xC0 (R51), 0x00 (R57): the rejections by name. -/
theorem test_decode_rejects :
    decode ⟨0xA8, 0x0A, 0x09⟩ = .error .operandA ∧
    decode ⟨0xA8, 0x07, 0x08⟩ = .error .operandB ∧
    decode ⟨0xC0, 0, 0⟩ = .error .unknownOpcode ∧
    decode ⟨0x00, 0, 0⟩ = .error .unknownOpcode := by decide

/-- The word of `LDI R5, 0xFF` numbered as the opcode table numbers bits. -/
theorem test_table_word : decodeTableWord 24 0xFF0599 = some (.ldi 5 0xFF) := by decide

theorem test_encode : encode (.st 4 1) = [0x9A, 0x04, 0x01] ∧ encode .ret = [0x09] := by decide

/-! ## One tick of each instruction -/

/-- L2. -/
theorem test_ldi : after (placed 0 [0x99, 0x05, 0xFF]) (fun t => (t.reg 5, t.pc)) = some (0xFF, 3) := by decide

/-- R90's corner case at the last usable address, X11: `pc` becomes 256 and the core still runs. -/
theorem test_ldi_top : after (placed 253 [0x99, 0x01, 0x2A]) (fun t => (t.reg 1, t.pc, t.status)) =
    some (0x2A, 256, .running) := by decide

/-- L5, at 0x10. -/
theorem test_ld : after ((placed 0x10 [0x98, 0x02, 0x00]).setReg 0 0x14) (fun t => (t.reg 2, t.reg 0, t.pc)) =
    some (0x14, 0x14, 0x13) := by decide

/-- R92's example. -/
theorem test_st : after (((placed 0x19 [0x9A, 0x04, 0x01]).setReg 4 0x80).setReg 1 0x0F)
    (fun t => (t.mem.read 0x80, t.reg 4, t.pc)) = some (0x0F, 0x80, 0x1C) := by decide

/-- L10: cell 255 is ordinary. -/
theorem test_st_top : after (((placed 0 [0x9A, 0x00, 0x01]).setReg 0 0xFF).setReg 1 0x07)
    (fun t => (t.mem.read 255, t.mem.read 0)) = some (0x07, 0x9A) := by decide

/-- R100's example. -/
theorem test_prn : after ((placed 9 [0x43, 0x00]).setReg 0 0x11) (fun t => (t.console, t.pc)) =
    some ([⟨.prn, 17⟩], 11) := by decide

/-- O4. -/
theorem test_pra : after ((placed 0 [0x42, 0x00]).setReg 0 0x48) (fun t => (t.console, t.pc)) =
    some ([⟨.pra, 72⟩], 2) := by decide

/-- R102's table. -/
theorem test_text : Event.text ⟨.prn, 0xFF⟩ = ['2', '5', '5', '\n'] ∧ Event.text ⟨.prn, 0⟩ = ['0', '\n'] ∧
    Event.text ⟨.pra, 0x41⟩ = ['A', '\n'] := by decide

/-- A31. -/
theorem test_inc : after ((placed 0 [0x78, 0x00]).setReg 0 0xFF) (fun t => (t.reg 0, t.fl, t.pc)) = some (0, 0, 2) := by
  decide

/-- A34: reaching zero sets no flag. -/
theorem test_dec : after (((placed 0 [0x79, 0x00]).setReg 0 0x01).setFl 0x02) (fun t => (t.reg 0, t.fl)) =
    some (0, 0x02) := by decide

/-- A33. -/
theorem test_dec_wraps : after (placed 0 [0x79, 0x00]) (fun t => t.reg 0) = some 0xFF := by decide

/-- A2. -/
theorem test_add : after (((placed 0 [0xA8, 0x00, 0x01]).setReg 0 200).setReg 1 100)
    (fun t => (t.reg 0, t.reg 1, t.pc)) = some (44, 100, 3) := by decide

/-- A24: a source that is also the destination. -/
theorem test_add_same : after ((placed 0 [0xA8, 0x02, 0x02]).setReg 2 0x90) (fun t => t.reg 2) = some 0x20 := by decide

/-- A7. -/
theorem test_sub : after (((placed 0 [0xA9, 0x00, 0x01]).setReg 0 3).setReg 1 5) (fun t => (t.reg 0, t.reg 1)) =
    some (254, 5) := by decide

/-- A11. -/
theorem test_mul : after (((placed 0 [0xAA, 0x00, 0x01]).setReg 0 20).setReg 1 15) (fun t => t.reg 0) = some 44 := by
  decide

/-- A16: unsigned. -/
theorem test_div : after (((placed 0 [0xAB, 0x00, 0x01]).setReg 0 255).setReg 1 2) (fun t => (t.reg 0, t.pc)) =
    some (127, 3) := by decide

/-- The DIV of P4: the record names the registers and the address, `pc` and R0 are kept. -/
theorem test_div_zero : after ((placed 0x11 [0xAB, 0x00, 0x02]).setReg 0 0x55)
    (fun t => (t.status, t.faultInfo, t.reg 0, t.pc)) =
    some (.faultArith, .report (.arith 0 2 0x11), 0x55, 0x11) := by decide

/-- A21. -/
theorem test_and : after (((placed 0 [0xB3, 0x00, 0x01]).setReg 0 0xCC).setReg 1 0xAA) (fun t => t.reg 0) =
    some 0x88 := by decide

/-- B4: unsigned, 0 is less than 255. -/
theorem test_cmp_less : after ((placed 0 [0xA0, 0x00, 0x01]).setReg 1 255) (fun t => (t.fl, t.pc)) = some (0x04, 3) := by
  decide

/-- B5 and no stale bits (B6): greater, with L set before. -/
theorem test_cmp_greater : after ((((placed 0 [0xA0, 0x00, 0x01]).setReg 0 128).setReg 1 127).setFl 0x04)
    (fun t => t.fl) = some 0x02 := by decide

/-- R121's example. -/
theorem test_jmp : after ((placed 0x20 [0x50, 0x03]).setReg 3 0x0C) (fun t => t.pc) = some 0x0C := by decide

/-- R122's example, E set. -/
theorem test_jeq_taken : after (((placed 0x14 [0x51, 0x03]).setReg 3 0x30).setFl 0x01) (fun t => (t.pc, t.fl)) =
    some (0x30, 0x01) := by decide

/-- B11. -/
theorem test_jeq_not_taken : after (((placed 0x14 [0x51, 0x03]).setReg 3 0x30).setFl 0x04) (fun t => t.pc) =
    some 0x16 := by decide

/-- B17: taken before any CMP. -/
theorem test_jne_taken : after ((placed 0x14 [0x52, 0x03]).setReg 3 0x0C) (fun t => t.pc) = some 0x0C := by decide

/-- B14. -/
theorem test_jne_not_taken : after (((placed 0x14 [0x52, 0x03]).setReg 3 0x0C).setFl 0x01) (fun t => t.pc) =
    some 0x16 := by decide

/-- R134's example: lazy initialisation. -/
theorem test_push : after ((placed 6 [0x4D, 0x00]).setReg 0 0xAA) (fun t => (t.reg 7, t.mem.read 0xF3, t.pc)) =
    some (0xF3, 0xAA, 8) := by decide

/-- S4: PUSH R7 pushes the old R7. -/
theorem test_push_r7 : after ((placed 0 [0x4D, 0x07]).setReg 7 0xF3) (fun t => (t.reg 7, t.mem.read 0xF2)) =
    some (0xF2, 0xF3) := by decide

/-- S6: a pop first of all reads `mem[0]` and initialises nothing. -/
theorem test_pop : after (placed 0 [0x4C, 0x00]) (fun t => (t.reg 0, t.reg 7, t.pc)) = some (0x4C, 1, 2) := by decide

/-- S5: the destination write comes last. -/
theorem test_pop_r7 : after (((placed 0 [0x4C, 0x07]).setReg 7 0x80).pokeInRange 0x80 0x33) (fun t => t.reg 7) =
    some 0x33 := by decide

/-- R136's example. -/
theorem test_call : after ((placed 9 [0x48, 0x03]).setReg 3 0x10) (fun t => (t.reg 7, t.mem.read 0xF3, t.pc)) =
    some (0xF3, 0x0B, 0x10) := by decide

/-- S7: CALL R7 goes to the old R7. -/
theorem test_call_r7 : after ((placed 3 [0x48, 0x07]).setReg 7 0x20) (fun t => (t.pc, t.reg 7, t.mem.read 0x1F)) =
    some (0x20, 0x1F, 0x05) := by decide

/-- R137's example. -/
theorem test_ret : after (((placed 0x16 [0x09]).setReg 7 0xF3).pokeInRange 0xF3 0x0B) (fun t => (t.pc, t.reg 7)) =
    some (0x0B, 0xF4) := by decide

/-- H3: the last usable address. -/
theorem test_hlt : after (placed 253 [0x01]) (fun t => (t.status, t.pc, t.faultInfo)) =
    some (.halted, 254, .unreported) := by decide

/-- P8b: HLT at 254 faults. -/
theorem test_hlt_at_254 : after (placed 254 [0x01]) (fun t => (t.status, t.faultInfo, t.pc)) =
    some (.faultBounds, .report (.bounds 256), 254) := by decide

/-- P7b: nothing loaded. -/
theorem test_first_tick_of_empty_memory : after State.reset (fun t => (t.status, t.faultInfo, t.pc)) =
    some (.faultDecode, .report (.decode 0 0), 0) := by decide

/-- X5 and X10: the record names operand B and its address. -/
theorem test_operandB_fault : after (placed 0 [0xAB, 0x00, 0x08]) (fun t => (t.status, t.faultInfo)) =
    some (.faultDecode, .report (.decode 2 0x08)) := by decide

/-- A placed table word is what the first tick after reset runs. -/
theorem test_withFetchWord : after (State.reset.withFetchWord 24 0xFF0599) (fun t => t.reg 5) = some 0xFF := by decide

/-! ## Witnesses: for each statement with hypotheses, a state and operands that meet them -/

/-- A second legal assignment: two bytes of the same count exchanged. -/
def swapped (m : Mnemonic) : Byte :=
  if m = .hlt then opc .ret else if m = .ret then opc .hlt else opc m

theorem witness_OpcWellFormed : OpcWellFormed opc ∧ OpcWellFormed swapped ∧ swapped ≠ opc := by
  refine ⟨opc_wellFormed, ⟨by decide, by decide, by decide⟩, fun h => ?_⟩
  exact absurd (congrFun h .hlt) (by decide)

theorem witness_EncodeReadsBackEveryDecoding :
    decodeWith opc ⟨0x99, 0x07, 0xFF⟩ = .ok (.ldi 7 0xFF) ∧ decodeWith swapped ⟨0x09, 1, 2⟩ = .ok .hlt := by decide

theorem witness_DecodeMatchesWholeOpcodeByte :
    (∀ m, opc m ≠ (Fetched.mk 0xFF 0 0).op) ∧
    (opc .ldi = 0x99 ∧ Mnemonic.ldi.format.usesRegA = true ∧ 7 < (0x08 : Byte).toNat) ∧
    (opc .add = 0xA8 ∧ Mnemonic.add.format.usesRegB = true ∧ (0x07 : Byte).toNat ≤ 7) ∧
    Mnemonic.prn.format = .r ∧ Mnemonic.ret.format = .z := by
  refine ⟨fun m => by cases m <;> decide, by decide, by decide, by decide, by decide⟩

theorem witness_UnknownOpcodesAre235 : 0xC0 ≤ (0xC0 : Byte).toNat ∧ 0xC0 ≤ (0xFF : Byte).toNat := by decide

theorem witness_StepRunsDecodedInstruction :
    (placed 253 [0x99, 0x01, 0x2A]).status = .running ∧ (placed 253 [0x99, 0x01, 0x2A]).pc.toNat ≤ 253 ∧
    decode (placed 253 [0x99, 0x01, 0x2A]).bytesAtPc = .ok (.ldi 1 0x2A) := by decide

theorem witness_StoppedTickChangesNothing :
    State.reset.halt.status ≠ .running ∧ (State.reset.raise (.bounds 256)).status ≠ .running := by decide

theorem witness_FetchNearTheTopFaults :
    (placed 254 [0x01]).status = .running ∧ 254 ≤ (placed 254 [0x01]).pc.toNat ∧ (placed 254 [0x01]).pc.toNat ≤ 256 ∧
    (placed 256 []).status = .running ∧ (placed 256 []).pc.toNat = 256 := by decide

theorem witness_UnknownOpcodeFaults :
    (placed 253 [0xFF]).status = .running ∧ (placed 253 [0xFF]).pc.toNat ≤ 253 ∧
    ∀ m, opc m ≠ (placed 253 [0xFF]).mem.read (placed 253 [0xFF]).pc.toNat := by
  refine ⟨by decide, by decide, fun m => by cases m <;> decide⟩

theorem witness_RegisterOperandAboveSevenFaults :
    (placed 253 [0x99, 0x08, 0]).status = .running ∧ (placed 253 [0x99, 0x08, 0]).pc.toNat ≤ 253 ∧
    opc .ldi = (placed 253 [0x99, 0x08, 0]).bytesAtPc.op ∧ 7 < (placed 253 [0x99, 0x08, 0]).bytesAtPc.a.toNat ∧
    opc .add = (placed 253 [0xA8, 0x07, 0x08]).bytesAtPc.op ∧
    (placed 253 [0xA8, 0x07, 0x08]).bytesAtPc.a.toNat ≤ 7 ∧ 7 < (placed 253 [0xA8, 0x07, 0x08]).bytesAtPc.b.toNat := by
  decide

/-- Each of the four stops, and none. -/
theorem witness_TickStopsInExactlyFourWays :
    after (placed 254 [0x01]) (fun t => t.status) = some .faultBounds ∧
    after (placed 253 [0xFF]) (fun t => t.status) = some .faultDecode ∧
    after (placed 253 [0xAB, 0x02, 0x02]) (fun t => t.status) = some .faultArith ∧
    after (placed 253 [0x01]) (fun t => t.status) = some .halted ∧
    after (placed 253 [0x43, 0x07]) (fun t => t.status) = some .running := by decide

theorem witness_FaultingTickChangesNothingElse :
    after (placed 0 [0xAB, 0x02, 0x02]) (fun t => t.goneWrong) = some true := by decide

theorem witness_FaultStopIsPermanent : (State.reset.raise (.decode 0 0)).goneWrong = true := by decide

theorem witness_ArithmeticErrorIsDivByZero :
    State.reset.reg 2 = 0 ∧ State.reset.status ≠ .faultArith ∧
    ∃ t, exec (.div 0 2) State.reset = .next t ∧ t.status = .faultArith :=
  ⟨by decide, by decide, _, exec_div_zero (by decide), rfl⟩

theorem witness_StepKeepsInv : State.reset.Inv ∧ ∃ t, step State.reset = .next t :=
  ⟨⟨reset_mem_wf, by decide, .inl rfl, trivial⟩, _, rfl⟩

/-- The invariant's clauses about the three fault states, each met by a state: an unknown opcode, a DIV by zero at the last
`pc` that can be fetched, and the first that cannot. -/
theorem witness_StepKeepsInv_faults :
    (State.reset.stoppedBy .faultDecode (.decode 0 0)).recordAgrees ∧
    ({ placed 253 [0xAB, 0, 2] with pc := 253 }.stoppedBy .faultArith (.arith 0 2 253)).recordAgrees ∧
    ({ State.reset with pc := 254 }.stoppedBy .faultBounds (.bounds 256)).recordAgrees :=
  ⟨⟨by decide, .unknownOpcode, by decide, rfl⟩, ⟨by decide, 0, 2, by decide, by decide, rfl⟩, by decide, rfl⟩

theorem witness_CanonicalMemoryIsUnique : Memory.wf [(3, 1), (255, 0x80)] := by decide

theorem witness_MemoryKeepsItsContract : (placed 253 [1, 2, 3]).mem.wf ∧ 255 ≤ 255 ∧ 255 < 256 := by decide

theorem witness_LoaderPlacesTheBytes : State.reset.mem.wf ∧ 254 + [(0x01 : Byte), 0x02].length ≤ 256 := by decide

theorem witness_MemoryChangesOnlyByStoreAndPush :
    (∃ t, exec (.st 0 1) ((State.reset.setReg 0 0xFF).setReg 1 7) = .next t ∧
      t.mem.read 255 ≠ ((State.reset.setReg 0 0xFF).setReg 1 7).mem.read 255) ∧
    (∃ t, exec (.push 1) (State.reset.setReg 1 7) = .next t ∧ t.mem.read 0xF3 ≠ (State.reset.setReg 1 7).mem.read 0xF3) ∧
    ∃ t, exec (.call 1) State.reset = .next t ∧ t.mem.read 0xF3 ≠ State.reset.mem.read 0xF3 :=
  ⟨⟨_, exec_st 0 1 _, by decide⟩, ⟨_, exec_push 1 _, by decide⟩, ⟨_, exec_call 1 _, by decide⟩⟩

theorem witness_RegistersChangeOnlyAsTabled :
    (∃ t, exec (.ldi 3 1) State.reset = .next t ∧ t.reg 3 ≠ State.reset.reg 3) ∧
    ∃ t, exec .ret State.reset = .next t ∧ t.reg 7 ≠ State.reset.reg 7 :=
  ⟨⟨_, exec_ldi 3 1 _, by decide⟩, ⟨_, exec_ret _, by decide⟩⟩

/-- The store hits each of the next instruction's three bytes. -/
theorem witness_StoreIsSeenByTheNextFetch :
    (placed 250 [0x9A, 0, 1]).mem.wf ∧ (placed 250 [0x9A, 0, 1]).pc.toNat ≤ 250 ∧
    (∃ t, exec (.st 0 1) (placed 250 [0x9A, 0, 1]) = .next t) ∧
    ((placed 250 [0x9A, 0, 1]).setReg 0 253).storeAddress 0 = 250 + 3 ∧
    ((placed 250 [0x9A, 0, 1]).setReg 0 254).storeAddress 0 = 250 + 4 ∧
    ((placed 250 [0x9A, 0, 1]).setReg 0 255).storeAddress 0 = 250 + 5 :=
  ⟨by decide, by decide, ⟨_, exec_st 0 1 _⟩, by decide, by decide, by decide⟩

/-- A tick that emits, of each kind, and one that does not. -/
theorem witness_ConsoleIsAppendedAndNeverRead :
    after (placed 0 [0x43, 0]) (fun t => t.console.length) = some 1 ∧
    after (placed 0 [0x42, 0]) (fun t => t.console.length) = some 1 ∧
    after (placed 0 [0x01]) (fun t => t.console.length) = some 0 := by decide

theorem witness_canonical_memory : (placed 0 [0x99, 0, 0, 0x01]).mem.wf ∧ State.reset.mem.wf := by decide

theorem witness_LdCopiesARegister : ∃ t, exec (.ld 1 7) State.reset = .next t := ⟨_, rfl⟩

/-- A zero and a nonzero divisor. -/
theorem witness_AluWritesItsLaw : (State.reset.reg 1).toNat = 0 ∧ ((State.reset.setReg 1 5).reg 1).toNat ≠ 0 := by decide

theorem witness_FlagsBelongToCmpAndTheEqualBranches :
    (∃ t, exec (.cmp 0 1) State.reset = .next t) ∧ (∃ t, exec (.jeq 0) State.reset = .next t) ∧
    (∃ t, exec (.add 0 1) State.reset = .next t) ∧ flagE 0x04 = flagE State.reset.fl :=
  ⟨⟨_, rfl⟩, ⟨_, rfl⟩, ⟨_, rfl⟩, by decide⟩

/-- JEQ with E set, JNE with E clear, and a target of 254 in a running core. -/
theorem witness_BranchTargetIsTheRegister :
    flagE (State.reset.setFl 0x01).fl = true ∧ flagE State.reset.fl = false ∧
    (State.reset.setReg 2 254).status = .running ∧ 254 ≤ ((State.reset.setReg 2 254).reg 2).toNat := by decide

theorem witness_PcJumpsOrFallsThrough :
    (∃ t, exec (.jmp 0) State.reset = .next t) ∧ (∃ t, exec .hlt State.reset = .next t) ∧
    ∃ t, exec (.div 0 1) State.reset = .next t :=
  ⟨⟨_, rfl⟩, ⟨_, rfl⟩, ⟨_, exec_div_zero (by decide)⟩⟩

theorem witness_FallThroughNeverWraps : (placed 253 []).pc.toNat ≤ 253 ∧ (placed 0 []).pc.toNat ≤ 253 := by decide

theorem witness_PcIsReadOnlyByCall : (∀ n, Instr.ret ≠ .call n) ∧ ∃ t, exec .ret State.reset = .next t :=
  ⟨fun n => by simp, ⟨_, exec_ret _⟩⟩

/-- B18. -/
theorem witness_JumpToItselfLoopsForEver :
    ((placed 3 [0x50, 0x00]).setReg 0 3).status = .running ∧ ((placed 3 [0x50, 0x00]).setReg 0 3).pc.toNat ≤ 253 ∧
    decode ((placed 3 [0x50, 0x00]).setReg 0 3).bytesAtPc = .ok (.jmp 0) ∧
    (((placed 3 [0x50, 0x00]).setReg 0 3).reg 0).toNat = ((placed 3 [0x50, 0x00]).setReg 0 3).pc.toNat := by decide

/-- R7 at 0, at 1 and at 255. -/
theorem witness_PushPointerIsLazilyInitialised :
    State.reset.reg 7 = 0 ∧ (State.reset.setReg 7 1).reg 7 ≠ 0 ∧ (State.reset.setReg 7 255).reg 7 ≠ 0 := by decide

theorem witness_PopWritesItsDestinationLast : (0 : Reg) ≠ 7 ∧ (6 : Reg) ≠ 7 := by decide

theorem witness_CallAtTheLastAddress : (placed 253 [0x48, 0x01]).mem.wf ∧ (placed 253 [0x48, 0x01]).pc.toNat ≤ 253 := by
  decide

/-- One byte on the lazily initialised stack, and a stack of two bytes that reaches cell 0. -/
theorem witness_StackIsLastInFirstOut :
    State.reset.mem.wf ∧ ((0xF4 : Byte) = if State.reset.reg 7 = 0 then 0xF4 else State.reset.reg 7) ∧
    ((2 : Byte) = if (State.reset.setReg 7 2).reg 7 = 0 then 0xF4 else (State.reset.setReg 7 2).reg 7) ∧
    [(1 : Byte), 2].length ≤ (2 : Byte).toNat := by decide

theorem witness_FaultRecordIsNeverRead : ∃ t, step State.reset = .next t := ⟨_, rfl⟩

theorem witness_PlacedWordRunsNext :
    State.reset.mem.wf ∧ State.reset.status = .running ∧ State.reset.pc.toNat ≤ 253 ∧
    decodeTableWord 24 0x0100A8 = some (.add 0 1) ∧ decodeTableWord 8 0x01 = some .hlt := by decide

end Sys2Proof.Tests
end

/-! SUPPORT. The state each instruction answers as a total function, tied to `exec` by `exec_eq_effect`, and the laws of it
that the statements about the state rest on: what an instruction may write, field by field, and what it does not read. -/

namespace Sys2Proof.Machine

/-! ## The state an instruction answers -/

/-- The state `exec i s` answers (`exec_eq_effect`), over the operations of Machine/Ops.lean. -/
def effect : Instr → State → State
  | .ldi n imm, s => (s.setReg n imm).advance .ldi
  | .ld a b, s => (s.setReg a (s.reg b)).advance .ld
  | .st a b, s => (s.setMem (s.mem.write (s.storeAddress a) (s.reg b))).advance .st
  | .prn n, s => (s.emit .prn (s.reg n)).advance .prn
  | .pra n, s => (s.emit .pra (s.reg n)).advance .pra
  | .inc n, s => (s.setReg n (s.reg n + 1)).advance .inc
  | .dec n, s => (s.setReg n (s.reg n - 1)).advance .dec
  | .add a b, s => (s.setReg a (s.reg a + s.reg b)).advance .add
  | .sub a b, s => (s.setReg a (s.reg a - s.reg b)).advance .sub
  | .mul a b, s => (s.setReg a (s.reg a * s.reg b)).advance .mul
  | .div a b, s =>
    if s.reg b = 0 then s.raise (.arith a b s.pc) else (s.setReg a (s.reg a / s.reg b)).advance .div
  | .and a b, s => (s.setReg a (s.reg a &&& s.reg b)).advance .and
  | .cmp a b, s => (s.setFl (compareFlags (s.reg a) (s.reg b))).advance .cmp
  | .jmp n, s => s.jump (s.reg n)
  | .jeq n, s => if flagE s.fl then s.jump (s.reg n) else s.advance .jeq
  | .jne n, s => if flagE s.fl then s.advance .jne else s.jump (s.reg n)
  | .push n, s =>
    ((s.setReg sp s.pushPointer).setMem (s.mem.write s.pushPointer.toNat (s.reg n))).advance .push
  | .pop n, s => ((s.setReg sp (s.popPointer + 1)).setReg n (s.mem.read s.popPointer.toNat)).advance .pop
  | .call n, s =>
    ((s.setReg sp s.pushPointer).setMem (s.mem.write s.pushPointer.toNat s.returnAddress)).jump (s.reg n)
  | .ret, s => (s.setReg sp (s.popPointer + 1)).jump (s.mem.read s.popPointer.toNat)
  | .hlt, s => s.halt.advance .hlt

/-- Every instruction completes: it answers one next state. -/
theorem exec_eq_effect (i : Instr) (s : State) : exec i s = .next (effect i s) := by
  cases i with
  | st a b => exact exec_st a b s
  | div a b => exact (apply_ite Host.Outcome.next _ _ _).symm
  | push n => exact exec_push n s
  | pop n => exact exec_pop n s
  | call n => exact exec_call n s
  | ret => exact exec_ret s
  | _ => rfl

theorem exec_eq_next {i : Instr} {s t : State} : exec i s = .next t ↔ t = effect i s := by
  rw [exec_eq_effect, Host.Outcome.next.injEq, eq_comm]

/-- A register is read from the register file alone. -/
@[simp] theorem reg_of_regs (s : State) (pc : Pc) (fl : Byte) (st : Status) (x : FaultInfo) (m : Memory) (c : List Event)
    (r : Reg) : State.reg ⟨s.regs, pc, fl, st, x, m, c⟩ r = s.reg r := rfl

theorem effect_div_zero {a b : Reg} {s : State} (h : s.reg b = 0) :
    effect (.div a b) s = s.raise (.arith a b s.pc) := if_pos h

theorem effect_div_nonzero {a b : Reg} {s : State} (h : s.reg b ≠ 0) :
    effect (.div a b) s = (s.setReg a (s.reg a / s.reg b)).advance .div := if_neg h

/-! ## What an instruction may write -/

/-- Memory is kept, or one cell of the address space is written: by ST where its register points, by PUSH and CALL at the new
stack pointer. -/
theorem effect_mem_cases (i : Instr) (s : State) :
    (effect i s).mem = s.mem ∨
    (∃ p q, i = .st p q ∧ (effect i s).mem = s.mem.write (s.storeAddress p) (s.reg q)) ∨
    (∃ n v, (i = .push n ∨ i = .call n) ∧ (effect i s).mem = s.mem.write s.pushPointer.toNat v) := by
  cases i with
  | st a b => exact .inr (.inl ⟨a, b, rfl, rfl⟩)
  | push n => exact .inr (.inr ⟨n, _, .inl rfl, rfl⟩)
  | call n => exact .inr (.inr ⟨n, _, .inr rfl, rfl⟩)
  | div a b | jeq n | jne n => left; simp only [effect]; split <;> rfl
  | _ => exact .inl rfl

/-- `pc` is kept, jumps to a byte, or falls through by the length of an instruction. -/
theorem effect_pc_cases (i : Instr) (s : State) :
    (effect i s).pc = s.pc ∨ (∃ v, (effect i s).pc = zext9 v) ∨
    (∃ m, (effect i s).pc = (s.advance m).pc) := by
  cases i with
  | div a b =>
    by_cases h : s.reg b = 0
    · rw [effect_div_zero h]; exact .inl rfl
    · rw [effect_div_nonzero h]; exact .inr (.inr ⟨_, rfl⟩)
  | jeq n =>
    simp only [effect]
    split
    · exact .inr (.inl ⟨_, rfl⟩)
    · exact .inr (.inr ⟨_, rfl⟩)
  | jne n =>
    simp only [effect]
    split
    · exact .inr (.inr ⟨_, rfl⟩)
    · exact .inr (.inl ⟨_, rfl⟩)
  | jmp n | call n | ret => exact .inr (.inl ⟨_, rfl⟩)
  | _ => exact .inr (.inr ⟨_, rfl⟩)

/-- FL is kept by every instruction but CMP (R18). -/
theorem effect_fl_cases (i : Instr) (s : State) :
    (effect i s).fl = s.fl ∨ ∃ a b, i = .cmp a b ∧ (effect i s).fl = compareFlags (s.reg a) (s.reg b) := by
  cases i with
  | cmp a b => exact .inr ⟨a, b, rfl, rfl⟩
  | div a b | jeq n | jne n => left; simp only [effect]; split <;> rfl
  | _ => exact .inl rfl

/-- The run state is kept by every instruction but HLT and a DIV by zero (R145, R152). -/
theorem effect_status_cases (i : Instr) (s : State) :
    (effect i s).status = s.status ∨ (effect i s).status = .halted ∨
    ∃ a b, i = .div a b ∧ s.reg b = 0 ∧ effect i s = s.raise (.arith a b s.pc) := by
  cases i with
  | hlt => exact .inr (.inl rfl)
  | div a b =>
    by_cases h : s.reg b = 0
    · exact .inr (.inr ⟨a, b, rfl, h, effect_div_zero h⟩)
    · rw [effect_div_nonzero h]; exact .inl rfl
  | jeq n | jne n => left; simp only [effect]; split <;> rfl
  | _ => exact .inl rfl

/-! ## What an instruction does not read -/

/-- The events an instruction emits: PRN's and PRA's (R100, R101). -/
def emitted : Instr → State → List Event
  | .prn n, s => [⟨.prn, s.reg n⟩]
  | .pra n, s => [⟨.pra, s.reg n⟩]
  | _, _ => []

theorem emitted_cases (i : Instr) (s : State) :
    emitted i s = [] ∨ (∃ n, i = .prn n ∧ emitted i s = [⟨.prn, s.reg n⟩]) ∨
    (∃ n, i = .pra n ∧ emitted i s = [⟨.pra, s.reg n⟩]) := by
  cases i with
  | prn n => exact .inr (.inl ⟨n, rfl, rfl⟩)
  | pra n => exact .inr (.inr ⟨n, rfl, rfl⟩)
  | _ => exact .inl rfl

/-- No instruction reads the console stream: on any stream it does the same, and appends the same events (R25). -/
theorem effect_withConsole (i : Instr) (s : State) (c : List Event) :
    effect i { s with console := c } = { effect i s with console := c ++ emitted i s } := by
  cases i with
  | prn n | pra n => rfl
  | div a b =>
    by_cases h : s.reg b = 0 <;> simp only [effect, emitted, List.append_nil, reg_of_regs, h, ↓reduceIte] <;> rfl
  | jeq n | jne n => simp only [effect, emitted, List.append_nil]; split <;> rfl
  | _ => simp only [emitted, List.append_nil]; rfl

/-- The events an instruction emits stand at the end of the stream. -/
theorem effect_console (i : Instr) (s : State) : (effect i s).console = s.console ++ emitted i s :=
  congrArg State.console (effect_withConsole i s s.console)

/-- No instruction reads the fault record (R21). -/
theorem effect_withFaultInfo (i : Instr) (s : State) (x : FaultInfo) :
    { effect i { s with faultInfo := x } with faultInfo := (effect i s).faultInfo } = effect i s := by
  cases i with
  | div a b => by_cases h : s.reg b = 0 <;> simp only [effect, reg_of_regs, h, ↓reduceIte] <;> rfl
  | jeq n | jne n => simp only [effect]; split <;> rfl
  | _ => rfl

/-- `pc` is read by CALL, which stores it, and otherwise goes only into `pc` and into the report of a DIV by zero (R15). -/
theorem effect_withPc {i : Instr} (hi : ∀ n, i ≠ .call n) (s : State) (p : Pc) :
    { effect i { s with pc := p } with pc := (effect i s).pc, faultInfo := (effect i s).faultInfo } =
      effect i s := by
  cases i with
  | call n => exact absurd rfl (hi n)
  | div a b => by_cases h : s.reg b = 0 <;> simp only [effect, reg_of_regs, h, ↓reduceIte] <;> rfl
  | jeq n | jne n => simp only [effect]; split <;> rfl
  | _ => rfl

/-- An instruction that reads FL reads only bit E, and only JEQ and JNE read it (R18). -/
theorem effect_withFl {i : Instr} {s : State} {v : Byte}
    (h : ((∀ n, i ≠ .jeq n) ∧ ∀ n, i ≠ .jne n) ∨ flagE v = flagE s.fl) :
    { effect i { s with fl := v } with fl := (effect i s).fl } = effect i s := by
  cases i with
  | jeq n =>
    have hE : flagE v = flagE s.fl := h.resolve_left fun hn => hn.1 n rfl
    simp only [effect, hE]; split <;> rfl
  | jne n =>
    have hE : flagE v = flagE s.fl := h.resolve_left fun hn => hn.2 n rfl
    simp only [effect, hE]; split <;> rfl
  | div a b => by_cases h : s.reg b = 0 <;> simp only [effect, reg_of_regs, h, ↓reduceIte] <;> rfl
  | _ => rfl

/-! ## The tick, forwards -/

theorem step_stopped {s : State} (h : s.status ≠ .running) : step s = .next s := if_neg h

theorem step_of_fetchInstr_ok {s : State} {i : Instr} (hr : s.status = .running) (hf : s.fetchInstr = .ok i) :
    step s = .next (effect i s) := by
  rw [step, if_pos hr, hf]; exact exec_eq_effect i s

theorem step_of_fetchInstr_error {s : State} {e : FatalError} (hr : s.status = .running)
    (hf : s.fetchInstr = .error e) : step s = .next (s.raise e) := by
  rw [step, if_pos hr, hf]

/-- What is fetched is what the bytes at `pc` decode to. -/
theorem decode_of_fetchInstr_ok {s : State} {i : Instr} (h : s.fetchInstr = .ok i) :
    s.pc.toNat ≤ 253 ∧ decode s.bytesAtPc = .ok i := by
  obtain ⟨j, hpc, hd, hf⟩ | ⟨e, -, -, hf⟩ | ⟨a, -, -, hf⟩ := fetchInstr_cases s
  · obtain rfl : j = i := Except.ok.inj (hf.symm.trans h)
    exact ⟨hpc, hd⟩
  · cases hf.symm.trans h
  · cases hf.symm.trans h

/-- The front end reads neither the console stream nor the fault record. -/
theorem fetchInstr_withConsole (s : State) (c : List Event) :
    ({ s with console := c } : State).fetchInstr = s.fetchInstr := rfl

theorem fetchInstr_withFaultInfo (s : State) (x : FaultInfo) :
    ({ s with faultInfo := x } : State).fetchInstr = s.fetchInstr := rfl

end Sys2Proof.Machine

/-! PROOFS. The invariant of the machine (R10, R14, R19, R21, R24). -/

namespace Sys2Proof.Machine

/-- CMP sets the one flag its operands' unsigned order names (R19). -/
theorem compareFlags_cases (p q : Byte) :
    (p.toNat = q.toNat ∧ compareFlags p q = flE) ∨ (p.toNat < q.toNat ∧ compareFlags p q = flL) ∨
    (q.toNat < p.toNat ∧ compareFlags p q = flG) := by
  unfold compareFlags
  split
  · next h => exact .inl ⟨h, rfl⟩
  · split
    · next h => exact .inr (.inl ⟨h, rfl⟩)
    · exact .inr (.inr ⟨by omega, rfl⟩)

theorem compareFlags_legal (p q : Byte) : flLegal (compareFlags p q) := by
  obtain ⟨-, h⟩ | ⟨-, h⟩ | ⟨-, h⟩ := compareFlags_cases p q <;> simp [flLegal, h]

/-- No instruction has more than two operand bytes (R52). -/
theorem operandCount_le_two (m : Mnemonic) : operandCount (opc m) ≤ 2 := by
  cases m <;> decide

theorem effect_mem_wf {s : State} (h : s.mem.wf) (i : Instr) : (effect i s).mem.wf := by
  obtain hm | ⟨p, q, -, hm⟩ | ⟨n, v, -, hm⟩ := effect_mem_cases i s <;> rw [hm]
  · exact h
  · exact write_wf h (byte_lt_memSize _) _
  · exact write_wf h (byte_lt_memSize _) _

/-- From a `pc` that can be fetched at, `pc` stays at most 256 (decision D3). -/
theorem effect_pc_le {s : State} (h : s.pc.toNat ≤ 253) (i : Instr) : (effect i s).pc.toNat ≤ 256 := by
  obtain hp | ⟨v, hp⟩ | ⟨m, hp⟩ := effect_pc_cases i s <;> rw [hp]
  · omega
  · have := v.isLt
    rw [zext9_toNat]
    omega
  · have := operandCount_le_two m
    rw [advance_pc, pc_add_toNat (by omega)]
    omega

theorem effect_fl_legal {s : State} (h : flLegal s.fl) (i : Instr) : flLegal (effect i s).fl := by
  obtain hf | ⟨a, b, -, hf⟩ := effect_fl_cases i s <;> rw [hf]
  · exact h
  · exact compareFlags_legal _ _

/-- An instruction run from a running state ends running, halted, or in the arithmetic error its bytes make. -/
theorem effect_recordAgrees {s : State} {i : Instr} (hr : s.status = .running) (hpc : s.pc.toNat ≤ 253)
    (hd : decode s.bytesAtPc = .ok i) : (effect i s).recordAgrees := by
  obtain hs | hs | ⟨a, b, rfl, hb, he⟩ := effect_status_cases i s
  · simp only [State.recordAgrees, hs, hr]
  · simp only [State.recordAgrees, hs]
  · rw [he]
    exact ⟨hpc, a, b, hd, hb, rfl⟩

/-- A fault of the front end leaves the record that the bytes at `pc` make. -/
theorem raise_recordAgrees {s : State} {e : FatalError} (hpc : s.pc.toNat ≤ 256)
    (hf : s.fetchInstr = .error e) : (s.raise e).recordAgrees := by
  obtain ⟨i, -, -, h⟩ | ⟨d, hle, hd, h⟩ | ⟨a, hge, ha, h⟩ := fetchInstr_cases s
  · cases h.symm.trans hf
  · obtain rfl : s.decodeFault s.bytesAtPc d = e := Except.error.inj (h.symm.trans hf)
    have hs : (s.raise (s.decodeFault s.bytesAtPc d)).status = .faultDecode := by cases d <;> rfl
    simp only [State.recordAgrees, hs]
    exact ⟨hle, d, hd, rfl⟩
  · obtain rfl : FatalError.bounds a = e := Except.error.inj (h.symm.trans hf)
    exact ⟨hge, by rw [raise_faultInfo, ha hpc]⟩

/-- Settles O17: a stopped state is kept; a fault of fetch or decode writes its own record; an instruction keeps each clause
by the law of the field. -/
theorem stepKeepsInv : Obligations.StepKeepsInv := by
  intro s t hs h
  obtain ⟨-, rfl⟩ | ⟨-, e, hf, rfl⟩ | ⟨hr, i, hf, hx⟩ := step_cases h
  · exact hs
  · exact ⟨hs.mem, hs.pc, hs.fl, raise_recordAgrees hs.pc hf⟩
  · obtain rfl := exec_eq_next.mp hx
    obtain ⟨hpc, hd⟩ := decode_of_fetchInstr_ok hf
    exact ⟨effect_mem_wf hs.mem i, effect_pc_le hpc i, effect_fl_legal hs.fl i, effect_recordAgrees hr hpc hd⟩

end Sys2Proof.Machine

/-! PROOFS. The canonical memory, and who writes memory (R24, R30, R37). -/

namespace Sys2Proof.Machine

/-- The cell at the head of a canonical memory does not read as unlisted. -/
theorem read_head_ne_unlisted {k : Nat} {w : Byte} {m : Memory} (h : Memory.wf ((k, w) :: m)) :
    Memory.read ((k, w) :: m) k ≠ Memory.unlisted := by
  rw [read_cons, if_pos rfl]
  exact (h.2 (k, w) List.mem_cons_self).2

/-- The tail of a canonical memory reads as the whole, but for the head's cell, which it does not list. -/
theorem read_tail {k : Nat} {w : Byte} {m : Memory} (h : Memory.wf ((k, w) :: m)) (a : Nat) :
    Memory.read m a = if k = a then Memory.unlisted else Memory.read ((k, w) :: m) a := by
  split
  · next e => exact read_of_not_listed fun c hc => e ▸ Nat.ne_of_gt (wf_head_lt h c hc)
  · next e => rw [read_cons, if_neg e]

/-- Of two canonical memories that read alike, the second has its head no higher: below it nothing is listed. -/
theorem head_le_of_read_eq {k k' : Nat} {w w' : Byte} {m m' : Memory} (h : Memory.wf ((k, w) :: m))
    (h' : Memory.wf ((k', w') :: m')) (hread : ∀ a, Memory.read ((k, w) :: m) a = Memory.read ((k', w') :: m') a) :
    k' ≤ k := by
  by_contra hlt
  exact read_head_ne_unlisted h ((hread k).trans (read_below_head h' (by omega)))

/-- Settles O20, by induction on the two lists: equal heads, then tails that read alike. -/
theorem canonicalMemoryIsUnique : Obligations.CanonicalMemoryIsUnique := by
  intro m
  induction m with
  | nil =>
    rintro (_ | ⟨⟨k', w'⟩, m'⟩) - h' hread
    · rfl
    · exact absurd (hread k').symm (read_head_ne_unlisted h')
  | cons c m ih =>
    obtain ⟨k, w⟩ := c
    rintro (_ | ⟨⟨k', w'⟩, m'⟩) h h' hread
    · exact absurd (hread k) (read_head_ne_unlisted h)
    · obtain rfl : k = k' :=
        Nat.le_antisymm (head_le_of_read_eq h' h fun a => (hread a).symm) (head_le_of_read_eq h h' hread)
      have hw : w = w' := by simpa [read_cons] using hread k
      have htail : ∀ a, Memory.read m a = Memory.read m' a := fun a => by
        rw [read_tail h, read_tail h', hread]
      rw [hw, ih m' (wf_tail h) (wf_tail h') htail]

/-- Settles O23: the one cell written is the only one that can read differently. -/
theorem memoryChangesOnlyByStoreAndPush : Obligations.MemoryChangesOnlyByStoreAndPush := by
  intro i s t a h hne
  obtain rfl := exec_eq_next.mp h
  obtain hm | ⟨p, q, hi, hm⟩ | ⟨n, v, hi, hm⟩ := effect_mem_cases i s <;> rw [hm] at hne
  · exact absurd rfl hne
  · exact .inl ⟨p, q, hi, by_contra fun ha => hne (read_write_other _ _ ha)⟩
  · exact .inr ⟨n, hi, by_contra fun ha => hne (read_write_other _ _ ha)⟩

end Sys2Proof.Machine

/-! PROOFS. What no tick reads, the flags, and the stopped core (R15, R18, R20, R21, R25). -/

namespace Sys2Proof.Machine

/-- Settles O26: a tick that runs no instruction appends nothing, an instruction appends what it emits. -/
theorem consoleIsAppendedAndNeverRead : Obligations.ConsoleIsAppendedAndNeverRead := by
  refine ⟨rfl, fun s t h => ?_⟩
  obtain ⟨hr, rfl⟩ | ⟨hr, e, hf, rfl⟩ | ⟨hr, i, hf, hx⟩ := step_cases h
  · exact ⟨[], by simp, .inl rfl, fun c => by simpa using step_stopped (s := { t with console := c }) hr⟩
  · refine ⟨[], by simp, .inl rfl, fun c => ?_⟩
    rw [List.append_nil]
    exact step_of_fetchInstr_error hr ((fetchInstr_withConsole s c).trans hf)
  · obtain rfl := exec_eq_next.mp hx
    obtain ⟨-, hd⟩ := decode_of_fetchInstr_ok hf
    refine ⟨emitted i s, effect_console i s, ?_, fun c => ?_⟩
    · obtain he | ⟨n, rfl, he⟩ | ⟨n, rfl, he⟩ := emitted_cases i s
      · exact .inl he
      · exact .inr (.inl ⟨n, hd, he⟩)
      · exact .inr (.inr ⟨n, hd, he⟩)
    · rw [← effect_withConsole]
      exact step_of_fetchInstr_ok hr ((fetchInstr_withConsole s c).trans hf)

/-- Settles O51: neither the front end nor an instruction reads the record, and a fault overwrites it. -/
theorem faultRecordIsNeverRead : Obligations.FaultRecordIsNeverRead := by
  intro s t x h
  obtain ⟨hr, rfl⟩ | ⟨hr, e, hf, rfl⟩ | ⟨hr, i, hf, hx⟩ := step_cases h
  · exact ⟨_, step_stopped (s := { t with faultInfo := x }) hr, rfl⟩
  · exact ⟨_, step_of_fetchInstr_error hr ((fetchInstr_withFaultInfo s x).trans hf), rfl⟩
  · obtain rfl := exec_eq_next.mp hx
    exact ⟨_, step_of_fetchInstr_ok hr ((fetchInstr_withFaultInfo s x).trans hf), effect_withFaultInfo i s x⟩

/-- Settles O39: the answers agree but for `pc` and the fault record. -/
theorem pcIsReadOnlyByCall : Obligations.PcIsReadOnlyByCall := by
  intro i s t p hi h
  obtain rfl := exec_eq_next.mp h
  have hp := effect_withPc hi s p
  exact ⟨_, exec_eq_effect i _, congrArg (·.regs) hp, congrArg (·.fl) hp, congrArg (·.mem) hp,
    congrArg (·.console) hp, congrArg (·.status) hp⟩

/-- Settles O34: CMP writes FL from the registers alone; every other instruction keeps it, and reads at most bit E. -/
theorem flagsBelongToCmpAndTheEqualBranches : Obligations.FlagsBelongToCmpAndTheEqualBranches := by
  intro i s t h
  obtain rfl := exec_eq_next.mp h
  refine ⟨fun hi => ?_, ?_, fun hjeq hjne v => ?_, fun v hv => ?_⟩
  · exact (effect_fl_cases i s).resolve_right fun ⟨a, b, hab, _⟩ => hi a b hab
  · rintro a b rfl v
    rfl
  · exact ⟨_, exec_eq_effect i _, effect_withFl (.inl ⟨hjeq, hjne⟩)⟩
  · exact ⟨_, exec_eq_effect i _, effect_withFl (.inr hv)⟩

/-- Settles O9: the gate of the tick is closed. -/
theorem stoppedTickChangesNothing : Obligations.StoppedTickChangesNothing :=
  fun _ => step_stopped

/-- CMP writes `pc` and FL and nothing else. -/
theorem exec_cmp_eq (a b : Reg) (s : State) :
    exec (.cmp a b) s = .next { s with pc := s.pc + 3, fl := compareFlags (s.reg a) (s.reg b) } := rfl

/-- The three values CMP leaves stand for the three orders of its operands (R19). -/
theorem compareFlags_iff (p q : Byte) :
    (compareFlags p q = 0x01 ↔ p.toNat = q.toNat) ∧ (compareFlags p q = 0x04 ↔ p.toNat < q.toNat) ∧
    (compareFlags p q = 0x02 ↔ q.toNat < p.toNat) := by
  obtain ⟨ho, h⟩ | ⟨ho, h⟩ | ⟨ho, h⟩ := compareFlags_cases p q <;> rw [h]
  · simp [ho, flE_eq]
  · simp [ho, ho.ne, ho.le, flL_eq]
  · simp [ho, ho.ne', ho.le, flG_eq]

/-- Each flag is set in one of the values CMP leaves, and in no other (R17). -/
theorem compareFlags_bits (p q : Byte) :
    (flagE (compareFlags p q) = true ↔ compareFlags p q = 0x01) ∧
    (flagL (compareFlags p q) = true ↔ compareFlags p q = 0x04) ∧
    (flagG (compareFlags p q) = true ↔ compareFlags p q = 0x02) := by
  obtain ⟨-, h⟩ | ⟨-, h⟩ | ⟨-, h⟩ := compareFlags_cases p q <;> rw [h] <;> decide

/-- Settles O33: FL is one of three known bytes, by the order of the operands. -/
theorem cmpSetsExactlyOneFlag : Obligations.CmpSetsExactlyOneFlag := by
  intro a b s
  obtain ⟨heq, hlt, hgt⟩ := compareFlags_iff (s.reg a) (s.reg b)
  obtain ⟨hE, hL, hG⟩ := compareFlags_bits (s.reg a) (s.reg b)
  exact ⟨_, exec_cmp_eq a b s, heq, hlt, hgt, hE, hL, hG, rfl⟩

end Sys2Proof.Machine

/-! PROOFS. The memory contract, the loader, and what a store leaves (R31, R34, R42, R92, R176). -/

namespace Sys2Proof.Machine

/-- After a checked write its address reads the byte written (R31). -/
theorem memRead_memWrite_same {s t : State} (hwf : s.mem.wf) {a : Nat} {v : Byte} (h : s.memWrite a v = .ok t) :
    t.memRead a = .ok v := by
  obtain ⟨ha, rfl⟩ := memWrite_cases h
  rw [memRead_in_range _ ha, setMem_mem, read_write_same hwf]

/-- A checked write leaves the answer of a read at every other address, a failure too (R31). -/
theorem memRead_memWrite_other {s t : State} {a b : Nat} {v : Byte} (h : s.memWrite a v = .ok t) (hb : b ≠ a) :
    t.memRead b = s.memRead b := by
  obtain ⟨-, rfl⟩ := memWrite_cases h
  simp only [State.memRead, setMem_mem, read_write_other s.mem v hb]

/-- Settles O21: by cases on the address check, a write that passes it is read back by the two laws above. -/
theorem memoryKeepsItsContract : Obligations.MemoryKeepsItsContract := by
  refine ⟨fun s hwf addr v => ⟨fun ha => ?_, fun ha => ?_⟩, fun addr ha => ?_⟩
  · have hw := memWrite_in_range s v (Nat.lt_succ_of_le ha)
    exact ⟨memRead_in_range s (Nat.lt_succ_of_le ha), _, hw, memRead_memWrite_same hwf hw,
      fun b hb => memRead_memWrite_other hw hb, rfl⟩
  · exact ⟨memRead_out_of_range s ha, memWrite_out_of_range s v ha⟩
  · exact memRead_in_range State.reset (Nat.lt_succ_of_le ha)

/-- The loader pokes its first byte, then loads the rest one address higher (R176). -/
theorem load_cons (s : State) {k : Nat} (v : Byte) (vs : List Byte) (h : k < 256) :
    s.load k (v :: vs) = (s.setMem (s.mem.write k v)).load (k + 1) vs := by
  rw [State.load, State.poke, memWrite_in_range s v h]

/-- Settles O22, by induction on the bytes: the later pokes go to higher addresses, so the first byte stays. -/
theorem loaderPlacesTheBytes : Obligations.LoaderPlacesTheBytes := by
  intro s k vs
  induction vs generalizing s k with
  | nil => exact fun _ _ => ⟨s, rfl, nofun, fun _ _ => rfl, rfl⟩
  | cons v vs ih =>
    intro hwf hk
    rw [List.length_cons] at hk
    have hk0 : k < 256 := by omega
    obtain ⟨t, hload, hbytes, hkept, hrest⟩ :=
      ih (s.setMem (s.mem.write k v)) (k + 1) (write_wf hwf hk0 v) (by omega)
    refine ⟨t, (load_cons s v vs hk0).trans hload, fun j hj => ?_, fun a ha => ?_, hrest⟩
    · cases j with
      | zero => exact (hkept k (.inl k.lt_succ_self)).trans (read_write_same hwf k v)
      | succ j =>
        rw [Nat.add_left_comm, Nat.add_comm j, List.getElem_cons_succ]
        exact hbytes j (Nat.lt_of_succ_lt_succ hj)
    · rw [List.length_cons] at ha
      exact (hkept a (by omega)).trans (read_write_other s.mem v (by omega))

/-- ST advances `pc` by its three bytes (R78, R92). -/
theorem effect_st_pc (a b : Reg) (s : State) : (effect (.st a b) s).pc = s.pc + 3 := rfl

/-- After ST the cell it addresses reads R`b` (R92). -/
theorem effect_st_read {s : State} (hwf : s.mem.wf) (a b : Reg) :
    (effect (.st a b) s).mem.read (s.storeAddress a) = s.reg b :=
  read_write_same hwf _ _

/-- Settles O30: the written cell reads back, every other cell reads as before, and ST's answer writes no other field but
`pc`. -/
theorem stStoresWhereRaPoints : Obligations.StStoresWhereRaPoints := by
  intro a b s
  refine ⟨_, exec_eq_effect _ s, fun hwf => effect_st_read hwf a b, rfl, effect_st_pc a b s, fun _ _ => rfl,
    fun c hc => ?_, rfl, rfl, rfl, rfl⟩
  exact read_write_other s.mem _ (List.ne_of_not_mem_cons hc)

/-- Settles O25: the fetch after ST is in range and reads the memory ST left, the stored cell included. -/
theorem storeIsSeenByTheNextFetch : Obligations.StoreIsSeenByTheNextFetch := by
  intro a b s t hwf hpc h
  have ht : t = effect (.st a b) s := exec_eq_next.mp h
  have hread : t.mem.read (s.storeAddress a) = s.reg b := ht ▸ effect_st_read hwf a b
  have hpc' : t.pc.toNat = s.pc.toNat + 3 := by
    rw [ht, effect_st_pc]
    exact pc_add_toNat (k := 3) (by omega)
  have hbytes : t.bytesAtPc =
      ⟨t.mem.read (s.pc.toNat + 3), t.mem.read (s.pc.toNat + 4), t.mem.read (s.pc.toNat + 5)⟩ := by
    rw [State.bytesAtPc, hpc']
  exact ⟨_, (fetch_in_range (by omega)).trans (congrArg _ hbytes), fun e => e ▸ hread, fun e => e ▸ hread,
    fun e => e ▸ hread⟩

end Sys2Proof.Machine

/-! SUPPORT. What three bytes decode to, said once for every opcode assignment: the answers of the decoder as a relation,
the bytes it reads, and the operand bytes it reads back (R52 to R57, R62). -/

namespace Sys2Proof

/-! ## Register operands -/

/-- A register operand's byte is 0 to 7 (R53). -/
theorem regByte_toNat_le (r : Reg) : (regByte r).toNat ≤ 7 :=
  Nat.le_of_not_lt fun h => nomatch (regIndex_regByte r).symm.trans (regIndex_eq_none.mpr h)

/-- A byte is a register's operand byte, or it is above 7 and no register index (R53). -/
theorem regIndex_cases (v : Byte) : (∃ r, v = regByte r ∧ regIndex v = some r) ∨ (7 < v.toNat ∧ regIndex v = none) := by
  cases h : regIndex v with
  | some r => exact .inl ⟨r, regIndex_eq_some.mp h, rfl⟩
  | none => exact .inr ⟨regIndex_eq_none.mp h, rfl⟩

theorem decodeR_regByte (mk : Reg → Instr) (op b : Byte) (n : Reg) : decodeR mk ⟨op, regByte n, b⟩ = .ok (mk n) := by
  simp only [decodeR, decodeRegA, regIndex_regByte]

theorem decodeRR_regByte (mk : Reg → Reg → Instr) (op : Byte) (a b : Reg) :
    decodeRR mk ⟨op, regByte a, regByte b⟩ = .ok (mk a b) := by
  simp only [decodeRR, decodeRegA, decodeRegB, regIndex_regByte]

/-! ## Every answer of the decoder -/

/-- The answers the rules allow for three bytes: no opcode of the assignment (R57); a register operand above 7, A before B
(R53, R75); or an instruction of that opcode whose operand bytes are the ones that follow it (R52, R62). -/
inductive DecodesTo (o : Mnemonic → Byte) (f : Fetched) : Except DecodeError Instr → Prop
  | unknown (hop : ∀ m, o m ≠ f.op) : DecodesTo o f (.error .unknownOpcode)
  | operandA (m : Mnemonic) (hop : o m = f.op) (usesA : m.format.usesRegA = true) (ha : 7 < f.a.toNat) :
      DecodesTo o f (.error .operandA)
  | operandB (m : Mnemonic) (hop : o m = f.op) (usesB : m.format.usesRegB = true) (ha : f.a.toNat ≤ 7)
      (hb : 7 < f.b.toNat) : DecodesTo o f (.error .operandB)
  | ok (i : Instr) (hop : o i.mnemonic = f.op)
      (bytes : operandBytes i = [f.a, f.b].take i.mnemonic.format.operands)
      (ha : i.mnemonic.format.usesRegA = true → f.a.toNat ≤ 7)
      (hb : i.mnemonic.format.usesRegB = true → f.b.toNat ≤ 7) : DecodesTo o f (.ok i)

section
variable {o : Mnemonic → Byte} {f : Fetched} {m : Mnemonic}

/-- Formats R and RI: one register operand. -/
theorem decodeR_decodesTo {mk : Reg → Instr} (hop : o m = f.op) (hm : ∀ n, (mk n).mnemonic = m)
    (bytes : ∀ n, f.a = regByte n → operandBytes (mk n) = [f.a, f.b].take m.format.operands)
    (usesA : m.format.usesRegA = true) (usesB : m.format.usesRegB = false) : DecodesTo o f (decodeR mk f) := by
  obtain ⟨n, ha, h⟩ | ⟨ha, h⟩ := regIndex_cases f.a <;> simp only [decodeR, decodeRegA, h]
  · obtain rfl := hm n
    exact .ok _ hop (bytes n ha) (fun _ => ha ▸ regByte_toNat_le n) fun hb => nomatch usesB.symm.trans hb
  · exact .operandA m hop usesA ha

/-- Format RR: two register operands, A checked first. -/
theorem decodeRR_decodesTo {mk : Reg → Reg → Instr} (hop : o m = f.op) (hm : ∀ a b, (mk a b).mnemonic = m)
    (bytes : ∀ a b, operandBytes (mk a b) = [regByte a, regByte b]) (rr : m.format = .rr) :
    DecodesTo o f (decodeRR mk f) := by
  obtain ⟨a, ha, h⟩ | ⟨ha, h⟩ := regIndex_cases f.a <;> simp only [decodeRR, decodeRegA, h]
  · have ha' : f.a.toNat ≤ 7 := ha ▸ regByte_toNat_le a
    obtain ⟨b, hb, h⟩ | ⟨hb, h⟩ := regIndex_cases f.b <;> simp only [decodeRegB, h]
    · obtain rfl := hm a b
      have hbytes : operandBytes (mk a b) = [f.a, f.b] := by rw [bytes, ha, hb]
      exact .ok _ hop (by rw [hbytes, rr]; rfl) (fun _ => ha') fun _ => hb ▸ regByte_toNat_le b
    · exact .operandB m hop (by rw [rr]; rfl) ha' hb
  · exact .operandA m hop (by rw [rr]; rfl) ha

/-- The operands of a known opcode, format by format. -/
theorem decodeOperands_decodesTo (hop : o m = f.op) : DecodesTo o f (decodeOperands f m) := by
  cases m with
  | ret => exact .ok .ret hop rfl nofun nofun
  | hlt => exact .ok .hlt hop rfl nofun nofun
  | ldi | prn | pra | inc | dec | jmp | jeq | jne | push | pop | call =>
    exact decodeR_decodesTo hop (fun _ => rfl) (fun _ ha => ha ▸ rfl) rfl rfl
  | ld | st | add | sub | mul | div | and | cmp =>
    exact decodeRR_decodesTo hop (fun _ _ => rfl) (fun _ _ => rfl) rfl

/-- The decoder answers as the rules allow, under any assignment. -/
theorem decodeWith_decodesTo (o : Mnemonic → Byte) (f : Fetched) : DecodesTo o f (decodeWith o f) := by
  unfold decodeWith
  cases h : lookupOpcode o f.op with
  | none => exact .unknown (lookupOpcode_eq_none.mp h)
  | some m => exact decodeOperands_decodesTo (lookupOpcode_sound h)

/-- A known answer of the decoder, inverted. -/
theorem decodesTo_of_decodeWith {r : Except DecodeError Instr} (h : decodeWith o f = r) : DecodesTo o f r :=
  h ▸ decodeWith_decodesTo o f

theorem decodeWith_unknown (h : ∀ m, o m ≠ f.op) : decodeWith o f = .error .unknownOpcode := by
  rw [decodeWith, lookupOpcode_eq_none.mpr h]

/-- Under a distinct assignment an opcode byte selects its mnemonic (R62). -/
theorem decodeWith_known (hd : OpcDistinct o) (h : o m = f.op) : decodeWith o f = decodeOperands f m := by
  rw [decodeWith, ← h, lookupOpcode_opc hd]

/-- Only the operand bytes of the format are read: surplus bytes are not looked at (R62). For each mnemonic the hypothesis
equates just the bytes its format reads. -/
theorem decodeOperands_congr {g : Fetched}
    (h : [f.a, f.b].take m.format.operands = [g.a, g.b].take m.format.operands) :
    decodeOperands f m = decodeOperands g m := by
  obtain ⟨op, a, b⟩ := f
  obtain ⟨op', a', b'⟩ := g
  cases m <;> cases h <;> rfl

theorem decodeWith_congr {g : Fetched} (hd : OpcDistinct o) (hop : o m = f.op) (hg : g.op = f.op)
    (h : [g.a, g.b].take m.format.operands = [f.a, f.b].take m.format.operands) :
    decodeWith o g = decodeWith o f := by
  rw [decodeWith_known hd hop, decodeWith_known hd (hop.trans hg.symm), decodeOperands_congr h]

/-- Under a distinct assignment, an operand A above 7 is always the reason (R53, R75). -/
theorem DecodesTo.eq_operandA {r : Except DecodeError Instr} (h : DecodesTo o f r) (hd : OpcDistinct o)
    (hop : o m = f.op) (usesA : m.format.usesRegA = true) (ha : 7 < f.a.toNat) : r = .error .operandA := by
  cases h with
  | unknown hno => exact absurd hop (hno m)
  | operandA => rfl
  | operandB _ _ _ ha' => omega
  | ok i hi _ ha' =>
    obtain rfl := opcDistinct_injective hd (hi.trans hop.symm)
    exact absurd (ha' usesA) (Nat.not_le_of_lt ha)

/-- Under a distinct assignment, an operand B above 7 is the reason once operand A is legal (R75). -/
theorem DecodesTo.eq_operandB {r : Except DecodeError Instr} (h : DecodesTo o f r) (hd : OpcDistinct o)
    (hop : o m = f.op) (usesB : m.format.usesRegB = true) (ha : f.a.toNat ≤ 7) (hb : 7 < f.b.toNat) :
    r = .error .operandB := by
  cases h with
  | unknown hno => exact absurd hop (hno m)
  | operandA _ _ _ ha' => omega
  | operandB => rfl
  | ok i hi _ _ hb' =>
    obtain rfl := opcDistinct_injective hd (hi.trans hop.symm)
    exact absurd (hb' usesB) (Nat.not_le_of_lt hb)

end

/-- The operand bytes of an instruction, and whatever follows them, are read back as its operands (R52). -/
theorem decodeOperands_operandBytes (i : Instr) (op p q : Byte) : ∃ a b rest,
    operandBytes i ++ [p, q] = a :: b :: rest ∧ decodeOperands ⟨op, a, b⟩ i.mnemonic = .ok i := by
  cases i with
  | ret | hlt => exact ⟨p, q, [], rfl, rfl⟩
  | ldi n imm => exact ⟨_, _, _, rfl, decodeR_regByte _ op imm n⟩
  | prn n | pra n | inc n | dec n | jmp n | jeq n | jne n | push n | pop n | call n =>
    exact ⟨_, _, _, rfl, decodeR_regByte _ op p n⟩
  | ld a b | st a b | add a b | sub a b | mul a b | div a b | and a b | cmp a b =>
    exact ⟨_, _, _, rfl, decodeRR_regByte _ op a b⟩

end Sys2Proof

/-! PROOFS. The encoding under every legal opcode assignment (R50 to R62). -/

namespace Sys2Proof

/-- Settles O1: the opcode byte selects the instruction's own mnemonic, whose operand bytes are read back. -/
theorem decodeReadsBackEveryEncoding : Obligations.DecodeReadsBackEveryEncoding := by
  rintro o ⟨hd, -, -⟩ i p q
  obtain ⟨a, b, rest, hbytes, hdec⟩ := decodeOperands_operandBytes i (o i.mnemonic) p q
  exact ⟨_, a, b, rest, congrArg (o i.mnemonic :: ·) hbytes, (decodeWith_known hd rfl).trans hdec⟩

/-- Settles O2: what decodes has the opcode and operand bytes fetched, as many as the top two bits of the opcode count. -/
theorem encodeReadsBackEveryDecoding : Obligations.EncodeReadsBackEveryDecoding := by
  rintro o ⟨-, hcount, -⟩ f i h
  cases decodesTo_of_decodeWith h with
  | ok _ hop bytes =>
    rw [encodeWith, bytes, ← hop, hcount _ (mem_all _), Nat.add_comm, List.take_succ_cons]

/-- Settles O3: each clause inverts the decoder's answer, the opcode byte standing for one mnemonic alone. -/
theorem decodeMatchesWholeOpcodeByte : Obligations.DecodeMatchesWholeOpcodeByte := by
  refine ⟨opc_wellFormed, ?_⟩
  rintro o ⟨hd, -, -⟩ f
  refine ⟨⟨fun h => ?_, decodeWith_unknown⟩, fun i h => ?_, fun m hop => ⟨fun usesA ha => ?_, fun usesB ha hb => ?_,
    fun hr v => ?_, fun hz v w => ?_⟩⟩
  · cases decodesTo_of_decodeWith h with
    | unknown hop => exact hop
  · cases decodesTo_of_decodeWith h with
    | ok _ hop => exact hop
  · exact (decodeWith_decodesTo o f).eq_operandA hd hop usesA ha
  · exact (decodeWith_decodesTo o f).eq_operandB hd hop usesB ha hb
  · exact decodeWith_congr hd hop rfl (by rw [hr]; rfl)
  · exact decodeWith_congr hd hop rfl (by rw [hz]; rfl)

/-- Settles O4: the decoder's refusals are the ways three bytes can be ill-formed. -/
theorem decodeAcceptsExactlyTheWellFormed : Obligations.DecodeAcceptsExactlyTheWellFormed := by
  rintro o ⟨hd, -, -⟩ f
  constructor
  · rintro ⟨i, h⟩
    cases decodesTo_of_decodeWith h with
    | ok _ hop _ ha hb =>
      have same {m : Mnemonic} (h : o m = f.op) : i.mnemonic = m := opcDistinct_injective hd (hop.trans h.symm)
      exact ⟨⟨_, mem_all _, hop⟩, fun m _ h => same h ▸ ha, fun m _ h => same h ▸ hb⟩
  · rintro ⟨⟨k, -, hk⟩, hA, hB⟩
    have h := decodeWith_decodesTo o f
    generalize decodeWith o f = r at h ⊢
    cases h with
    | unknown hop => exact absurd hk (hop k)
    | operandA m hop usesA ha => exact absurd (hA m (mem_all m) hop usesA) (Nat.not_le_of_lt ha)
    | operandB m hop usesB _ hb => exact absurd (hB m (mem_all m) hop usesB) (Nat.not_le_of_lt hb)
    | ok i => exact ⟨i, rfl⟩

/-- A byte whose count field is 3 is no opcode (R51, R56 (b)). -/
theorem opc_ne_of_count_three {o : Mnemonic → Byte} (hcount : OpcCountsOperands o) {v : Byte} (hv : 0xC0 ≤ v.toNat)
    (m : Mnemonic) : o m ≠ v := by
  rintro rfl
  have hm : (o m).toNat / 64 = m.format.operands := hcount m (mem_all m)
  have hle : m.format.operands ≤ 2 := by cases m.format <;> decide
  omega

/-- The unknown bytes are those outside the list of the 21 opcodes (R57). -/
theorem unknownOpcodes_eq_compl (o : Mnemonic → Byte) :
    (Finset.univ.filter fun v : Byte => lookupOpcode o v = none) = (Mnemonic.all.map o).toFinsetᶜ := by
  ext v
  simp [lookupOpcode_eq_none, mem_all]

/-- Settles O5: the 21 distinct opcode bytes leave 256 - 21, and none of them has the count field 3. -/
theorem unknownOpcodesAre235 : Obligations.UnknownOpcodesAre235 := by
  refine ⟨?_, by decide⟩
  rintro o ⟨hd, hcount, -⟩
  refine ⟨?_, fun v hv => lookupOpcode_eq_none.mpr (opc_ne_of_count_three hcount hv)⟩
  rw [unknownOpcodes_eq_compl, Finset.card_compl, List.toFinset_card_of_nodup hd, List.length_map,
    ← FinEnum.card_eq_fintypeCard, FinEnum.card_bitVec]
  rfl

end Sys2Proof

/-! PROOFS. The fall-through, the unknown opcode and the immediate (R54, R57, R78, R90). -/

namespace Sys2Proof.Machine

/-- Settles O38: an opcode counts at most two operands, so the nine-bit sum stays at most 256. -/
theorem fallThroughNeverWraps : Obligations.FallThroughNeverWraps := by
  intro m s hpc
  have hle := operandCount_le_two m
  have hsum : (s.advance m).pc.toNat = s.pc.toNat + (1 + operandCount (opc m)) := by
    rw [advance_pc, pc_add_toNat (by omega)]
  rw [hsum, ← operandCount_eq_div]
  omega

/-- Settles O11: the fetch is in range and its opcode is looked up as nothing. -/
theorem unknownOpcodeFaults : Obligations.UnknownOpcodeFaults := by
  intro s hr hpc hop
  have hd : decode s.bytesAtPc = .error .unknownOpcode := decodeWith_unknown hop
  exact step_of_fetchInstr_error hr (fetchInstr_of_decode_error hpc hd)

/-- Settles O28: LDI writes one register and `pc`. -/
theorem ldiLoadsItsImmediate : Obligations.LdiLoadsItsImmediate := by
  intro n imm s
  refine ⟨_, exec_ldi n imm s, ?_, rfl, fun r hr => ?_, fun _ _ => rfl, rfl, rfl, rfl, rfl⟩
  · rw [reg_advance, reg_setReg_same]
  · exact reg_setReg_other s imm (List.ne_of_not_mem_cons hr)

end Sys2Proof.Machine

/-! PROOFS. The execution cycle: what a tick runs, that it always answers, and where `pc` goes (R70 to R82). -/

namespace Sys2Proof.Machine

/-! ## The tick -/

/-- Settles O7: in range, what the bytes decode to is what the front end answers. -/
theorem stepRunsDecodedInstruction : Obligations.StepRunsDecodedInstruction := by
  intro s i hr hpc hd
  rw [exec_eq_effect]
  exact step_of_fetchInstr_ok hr (fetchInstr_of_decode hpc hd)

/-- Settles O8: a stopped state answers itself, a fault of fetch or decode its fault state, an instruction its effect. -/
theorem everyTickAnswersNext : Obligations.EveryTickAnswersNext := by
  intro s
  by_cases hr : s.status = .running
  · cases hf : s.fetchInstr with
    | ok i => exact ⟨_, step_of_fetchInstr_ok hr hf⟩
    | error e => exact ⟨_, step_of_fetchInstr_error hr hf⟩
  · exact ⟨s, step_stopped hr⟩

/-- Settles O10: one of the three reads is at address 256, and the fault it raises is the tick's. -/
theorem fetchNearTheTopFaults : Obligations.FetchNearTheTopFaults := by
  intro s hr hlo hhi
  have hf : s.fetchInstr = .error (.bounds 256) := by rw [State.fetchInstr, fetch_near_top hlo hhi]
  exact step_of_fetchInstr_error hr hf

/-! ## Where `pc` goes -/

/-- Settles O35, by cases on E for the two conditional branches. -/
theorem branchesSetOnlyPc : Obligations.BranchesSetOnlyPc := by
  refine fun n s => ⟨exec_jmp n s, ?_, ?_⟩
  · split
    · next hE => exact exec_jeq_taken hE
    · next hE => exact exec_jeq_not_taken (Bool.eq_false_of_not_eq_true hE)
  · split
    · next hE => exact exec_jne_not_taken hE
    · next hE => exact exec_jne_taken (Bool.eq_false_of_not_eq_true hE)

/-- Settles O37, by cases on the instruction: `pc` of its effect is read off, but for the three that choose between two
effects, by E or by the divisor. -/
theorem pcJumpsOrFallsThrough : Obligations.PcJumpsOrFallsThrough := by
  intro i s t h
  obtain rfl := exec_eq_next.mp h
  cases i with
  | jeq n | jne n => exact apply_ite State.pc _ _ _
  | div a b =>
    by_cases hb : s.reg b = 0
    · rw [effect_div_zero hb]
      exact ⟨(if_pos hb).symm, fun _ => rfl⟩
    · rw [effect_div_nonzero hb]
      exact ⟨(if_neg hb).symm, fun h0 => absurd h0 hb⟩
  | _ => rfl

/-- A jump to the address that `pc` holds changes nothing (R79). -/
theorem jump_eq_self {s : State} {v : Byte} (h : v.toNat = s.pc.toNat) : s.jump v = s := by
  have hpc : zext9 v = s.pc := BitVec.eq_of_toNat_eq ((zext9_toNat v).trans h)
  rw [State.jump, hpc]

/-- A state that a tick keeps is kept by every run. -/
theorem run_of_step_self {s : State} (h : step s = .next s) (k : Nat) : Host.Core.run core k s = .next s := by
  induction k with
  | zero => rfl
  | succ k ih => rw [run_succ h, ih]

/-- Settles O40: one tick is the jump, which changes nothing, and so is every further one. -/
theorem jumpToItselfLoopsForEver : Obligations.JumpToItselfLoopsForEver := by
  intro s n hr hpc hd hn
  have hstep : step s = .next s := by
    rw [stepRunsDecodedInstruction s _ hr hpc hd, exec_jmp, jump_eq_self hn]
  exact run_of_step_self hstep

/-! ## A table word placed at `pc` -/

/-- Up to `pc` 253 placing three bytes writes the cells at `pc`, `pc + 1` and `pc + 2`, and memory alone. -/
theorem placeFetched_eq {s : State} (hpc : s.pc.toNat ≤ 253) (f : Fetched) :
    s.placeFetched f =
      s.setMem (((s.mem.write s.pc.toNat f.op).write (s.pc.toNat + 1) f.a).write (s.pc.toNat + 2) f.b) := by
  rw [State.placeFetched, pokeInRange_eq _ _ (by omega), pokeInRange_eq _ _ (by omega), pokeInRange_eq _ _ (by omega)]
  rfl

/-- The bytes placed are the bytes fetched: each write is read back, past the writes of the other cells. -/
theorem bytesAtPc_placeFetched {s : State} (hwf : s.mem.wf) (hpc : s.pc.toNat ≤ 253) (f : Fetched) :
    (s.placeFetched f).bytesAtPc = f := by
  have hwf₁ := write_wf hwf (a := s.pc.toNat) (by simp only [Config.memSize]; omega) f.op
  have hwf₂ := write_wf hwf₁ (a := s.pc.toNat + 1) (by simp only [Config.memSize]; omega) f.a
  simp only [placeFetched_eq hpc, State.bytesAtPc, setMem_mem, setMem_pc]
  rw [read_write_same hwf₂, read_write_other _ _ (by omega), read_write_other _ _ (by omega), read_write_same hwf,
    read_write_other _ _ (by omega), read_write_same hwf₁]

/-- A table word decodes as its three bytes do. -/
theorem decode_tableBytes {nbits w : Nat} {i : Instr} (h : decodeTableWord nbits w = some i) :
    decode (tableBytes nbits w) = .ok i := by
  unfold decodeTableWord at h
  split at h
  · next hd => rw [hd, Option.some.inj h]
  · cases h

/-- Settles O52: the placed state is running at the same `pc`, and its bytes there are the word's. -/
theorem placedWordRunsNext : Obligations.PlacedWordRunsNext := by
  intro s nbits w i hwf hr hpc hw
  have hplaced := placeFetched_eq hpc (tableBytes nbits w)
  have hbytes := bytesAtPc_placeFetched hwf hpc (tableBytes nbits w)
  refine stepRunsDecodedInstruction (s.placeFetched (tableBytes nbits w)) i ?_ ?_ ?_
  · rw [hplaced]; exact hr
  · rw [hplaced]; exact hpc
  · rw [hbytes]; exact decode_tableBytes hw

end Sys2Proof.Machine

/-! PROOFS. The register copy (R91), from the frame that every instruction writing one register has. -/

namespace Sys2Proof.Machine

/-- An instruction that answers by writing one register and advancing `pc` keeps everything else. -/
theorem writesOnly_of_exec_eq_setReg_advance {i : Instr} {s : State} {d : Reg} {v : Byte} {m : Mnemonic}
    (h : exec i s = .next ((s.setReg d v).advance m)) :
    WritesOnly i s d v.toNat (BitVec.ofNat Config.pcWidth (1 + operandCount (opc m))) := by
  refine ⟨_, h, ?_, rfl, fun r hr => ?_, fun _ _ => rfl, rfl, rfl, rfl, rfl⟩
  · rw [reg_advance, reg_setReg_same]
  · exact reg_setReg_other s v (List.ne_of_not_mem_cons hr)

/-- LD reads no memory: on any memory it does the same, and leaves that memory (R91). -/
theorem effect_ld_withMem (a b : Reg) (s : State) (m : Memory) :
    effect (.ld a b) { s with mem := m } = { effect (.ld a b) s with mem := m } := rfl

/-- Settles O29: LD answers by writing R`a` and advancing `pc`, and its effect commutes with putting another memory in
place. -/
theorem ldCopiesARegister : Obligations.LdCopiesARegister := by
  refine fun a b s => ⟨writesOnly_of_exec_eq_setReg_advance (exec_ld a b s), fun m t h => ?_⟩
  obtain rfl := exec_eq_next.mp h
  rw [exec_eq_effect, effect_ld_withMem]

end Sys2Proof.Machine

/-! PROOFS. The console port: what PRN and PRA do, and the reference text of an event (R100, R101, R102). -/

namespace Sys2Proof.Machine

/-! ## PRN and PRA -/

/-- An instruction of one operand that emits an event and falls through changes `pc`, by 2, and the console stream. -/
theorem advance_emit_eq {m : Mnemonic} (hm : operandCount (opc m) = 1) (s : State) (k : EventKind) (v : Byte) :
    (s.emit k v).advance m = { s with pc := s.pc + 2, console := s.console ++ [⟨k, v⟩] } := by
  rw [State.advance, hm]
  rfl

/-- Settles O31: both emit one event and fall through past one operand. -/
theorem prnAndPraEmitOneEvent : Obligations.PrnAndPraEmitOneEvent := by
  intro n s
  constructor
  · rw [exec_prn, advance_emit_eq operandCount_prn]
  · rw [exec_pra, advance_emit_eq operandCount_pra]

/-! ## The decimal numeral of a byte -/

/-- The numeral has one, two or three digits, by the size of the number. -/
theorem decimalDigits_cases (n : Nat) :
    (n < 10 ∧ decimalDigits n = [n]) ∨
    (10 ≤ n ∧ n < 100 ∧ decimalDigits n = [n / 10, n % 10]) ∨
    (100 ≤ n ∧ decimalDigits n = [n / 100, n / 10 % 10, n % 10]) := by
  unfold decimalDigits
  split
  · next h => exact .inl ⟨h, rfl⟩
  · next h =>
    split
    · next h' => exact .inr (.inl ⟨Nat.le_of_not_lt h, h', rfl⟩)
    · next h' => exact .inr (.inr ⟨Nat.le_of_not_lt h', rfl⟩)

/-- The value of the numeral, read from its most significant digit. -/
theorem decimalDigits_value (n : Nat) : (decimalDigits n).foldl (fun k d => 10 * k + d) 0 = n := by
  obtain ⟨-, h⟩ | ⟨-, -, h⟩ | ⟨-, h⟩ := decimalDigits_cases n <;>
  · simp only [h, List.foldl_cons, List.foldl_nil]
    omega

theorem decimalDigits_ne_nil (n : Nat) : decimalDigits n ≠ [] := by
  obtain ⟨-, h⟩ | ⟨-, -, h⟩ | ⟨-, h⟩ := decimalDigits_cases n <;> simp [h]

/-- Below 1000 the leading digit is a digit, as the others always are. -/
theorem decimalDigits_le_nine {n : Nat} (hn : n < 1000) : ∀ d ∈ decimalDigits n, d ≤ 9 := by
  obtain ⟨hlt, h⟩ | ⟨-, hlt, h⟩ | ⟨-, h⟩ := decimalDigits_cases n <;>
  · simp only [h, List.forall_mem_cons, List.not_mem_nil, false_implies, implies_true, and_true]
    omega

/-- Only the numeral of zero begins with 0. -/
theorem decimalDigits_no_leading_zero {n : Nat} (h0 : (decimalDigits n).head? = some 0) : decimalDigits n = [0] := by
  obtain ⟨-, h⟩ | ⟨hge, -, h⟩ | ⟨hge, h⟩ := decimalDigits_cases n <;>
    rw [h, List.head?_cons, Option.some.injEq] at h0
  · rw [h, h0]
  · omega
  · omega

/-! ## The one character of a byte -/

/-- Every byte is the code point of a character: the surrogates begin at U+D800. -/
theorem toNat_charOfByte (v : Byte) : (Char.ofNat v.toNat).toNat = v.toNat := by
  have hv : v.toNat.isValidChar := .inl (v.isLt.trans (by decide))
  rw [Char.toNat_ofNat, if_pos hv]

/-- Settles O27: the digits of a PRN event are `decimalDigits` of its byte, the character of a PRA event has its byte as code
point. -/
theorem eventTextIsNumeralOrCharacter : Obligations.EventTextIsNumeralOrCharacter := by
  intro v
  have hv : v.toNat < 1000 := v.isLt.trans (by decide)
  exact ⟨⟨decimalDigits v.toNat, rfl, decimalDigits_value _, decimalDigits_ne_nil _, decimalDigits_le_nine hv,
    decimalDigits_no_leading_zero⟩, ⟨Char.ofNat v.toNat, rfl, toNat_charOfByte v⟩⟩

end Sys2Proof.Machine

/-! PROOFS. The ALU (R105 to R112): every operation writes one register, so what is left of each law is the unsigned value of
a byte operation. -/

namespace Sys2Proof.Machine

/-- A difference of bytes is the integers' difference, with 256 borrowed when it would be negative (R109). -/
theorem byte_sub_toNat (v w : Byte) :
    (v - w).toNat = if w.toNat ≤ v.toNat then v.toNat - w.toNat else v.toNat + 256 - w.toNat := by
  split
  · next h => exact BitVec.toNat_sub_of_le h
  · next h =>
    have hw : w.toNat < 256 := w.isLt
    rw [BitVec.toNat_sub]
    omega

/-- Subtracting 1 borrows only from 0 (R107). -/
theorem byte_sub_one_toNat (v : Byte) : (v - 1).toNat = if v.toNat = 0 then 255 else v.toNat - 1 := by
  have one : (1 : Byte).toNat = 1 := rfl
  rw [byte_sub_toNat, one]
  split <;> split <;> omega

/-- The frame of an instruction that writes one register, with the value it leaves there given as a number. -/
theorem writesOnly_of_toNat_eq {i : Instr} {s : State} {d : Reg} {v : Byte} {m : Mnemonic} {n : Nat} (hv : v.toNat = n)
    (h : exec i s = .next ((s.setReg d v).advance m)) :
    WritesOnly i s d n (BitVec.ofNat Config.pcWidth (1 + operandCount (opc m))) :=
  hv ▸ writesOnly_of_exec_eq_setReg_advance h

/-- Settles O32: each operation has the frame of an instruction that writes one register, and writes there the value of its
byte operation; DIV does so or takes the arithmetic error, by its divisor. -/
theorem aluWritesItsLaw : Obligations.AluWritesItsLaw := by
  rintro a b s _ _ rfl rfl
  refine ⟨?inc, ?dec, ?add, ?sub, ?mul, ?and, fun hq => ?div, fun hq => ?divZero⟩
  case inc => exact writesOnly_of_toNat_eq (BitVec.toNat_add _ _) (exec_inc a s)
  case dec => exact writesOnly_of_toNat_eq (byte_sub_one_toNat _) (exec_dec a s)
  case add => exact writesOnly_of_toNat_eq (BitVec.toNat_add _ _) (exec_add a b s)
  case sub => exact writesOnly_of_toNat_eq (byte_sub_toNat _ _) (exec_sub a b s)
  case mul => exact writesOnly_of_toNat_eq (BitVec.toNat_mul _ _) (exec_mul a b s)
  case and => exact writesOnly_of_toNat_eq (BitVec.toNat_and _ _) (exec_and a b s)
  case div =>
    have hb : s.reg b ≠ 0 := fun h0 => hq (congrArg BitVec.toNat h0)
    exact writesOnly_of_toNat_eq BitVec.toNat_udiv (exec_div_nonzero hb)
  case divZero =>
    have hb : s.reg b = 0 := BitVec.eq_of_toNat_eq hq
    exact exec_div_zero hb

end Sys2Proof.Machine

/-! PROOFS. The register target of the branches and of CALL, and what CALL leaves on the stack (R73, R124, R131, R136). -/

namespace Sys2Proof.Machine

/-! ## The target -/

/-- A running core that has jumped to 254 or 255 stops at the next tick's fetch (R73, R156). -/
theorem step_jump_near_top {s : State} {v : Byte} (hr : s.status = .running) (hv : 254 ≤ v.toNat) :
    step (s.jump v) = .next ((s.jump v).stoppedBy .faultBounds (.bounds 256)) := by
  have hpc : (s.jump v).pc.toNat = v.toNat := zext9_toNat v
  have hlt : v.toNat < 256 := v.isLt
  exact fetchNearTheTopFaults (s.jump v) hr (by omega) (by omega)

/-- The taken branches and CALL end in a jump to the register's value before the instruction; the state they jump from has
the same run state, and only CALL's differs otherwise (R124, R136). -/
theorem exec_jumps_to_register {i : Instr} {n : Reg} {s : State}
    (h : i = .jmp n ∨ (i = .jeq n ∧ flagE s.fl = true) ∨ (i = .jne n ∧ flagE s.fl = false) ∨ i = .call n) :
    ∃ u, exec i s = .next (u.jump (s.reg n)) ∧ u.status = s.status ∧ (i ≠ .call n → u = s) := by
  obtain rfl | ⟨rfl, hE⟩ | ⟨rfl, hE⟩ | rfl := h
  · exact ⟨s, exec_jmp n s, rfl, fun _ => rfl⟩
  · exact ⟨s, exec_jeq_taken hE, rfl, fun _ => rfl⟩
  · exact ⟨s, exec_jne_taken hE, rfl, fun _ => rfl⟩
  · exact ⟨_, exec_call n s, rfl, fun hne => absurd rfl hne⟩

/-- Settles O36: each of the four ends in a jump to the register's value, and the tick after a jump to 254 or 255 faults. -/
theorem branchTargetIsTheRegister : Obligations.BranchTargetIsTheRegister := by
  intro i n s h
  obtain ⟨u, hexec, hstatus, hsame⟩ := exec_jumps_to_register h
  refine ⟨_, hexec, zext9_toNat _, fun hne => ?_, fun hr hv => step_jump_near_top (hstatus.trans hr) hv⟩
  rw [hsame hne]
  rfl

/-! ## CALL -/

/-- After CALL the cell at the push pointer reads the return address (R131, R136). -/
theorem effect_call_read {s : State} (hwf : s.mem.wf) (n : Reg) :
    (effect (.call n) s).mem.read s.pushPointer.toNat = s.returnAddress :=
  read_write_same hwf _ _

/-- CALL leaves the push pointer in R7 (R131). -/
theorem effect_call_reg_sp (n : Reg) (s : State) : (effect (.call n) s).reg 7 = s.pushPointer :=
  reg_setReg_same s 7 s.pushPointer

/-- Settles O45: the pushed cell reads back the return address, which is `pc + 2` for `pc` at most 253, and CALL's answer writes
no register but R7, no other cell, and no other field but `pc`. -/
theorem callPushesTheReturnAddress : Obligations.CallPushesTheReturnAddress := by
  intro n s
  refine ⟨_, exec_eq_effect _ s, fun hwf hpc => ?_, effect_call_reg_sp n s, rfl, fun r hr => ?_, fun a ha => ?_,
    rfl, rfl, rfl, rfl⟩
  · rw [effect_call_read hwf, returnAddress_toNat hpc]
  · exact reg_setReg_other s s.pushPointer (List.ne_of_not_mem_cons hr)
  · exact read_write_other s.mem _ (List.ne_of_not_mem_cons ha)

end Sys2Proof.Machine

/-! PROOFS. The stack and the subroutine instructions (R130 to R137): what a push and a pop leave, said once, then PUSH, POP
and RET, the two pairs, and the stack as a sequence of bytes. -/

namespace Sys2Proof.Machine

/-! ## The pointer, and the states that a push and a pop leave -/

/-- The top of the stack that a push goes below: R7, or 0xF4 when R7 holds 0 (R133, decision D6). -/
def State.stackBase (s : State) : Byte :=
  if s.reg 7 = 0 then 0xF4 else s.reg 7

/-- The state a push of `v` leaves (`push_eq_pushed`). -/
def State.pushed (s : State) (v : Byte) : State :=
  (s.setReg 7 s.pushPointer).setMem (s.mem.write s.pushPointer.toNat v)

/-- The state a pop leaves (`pop_eq_popped`). -/
def State.popped (s : State) : State :=
  s.setReg 7 (s.reg 7 + 1)

/-- The byte a pop reads (`pop_eq_popped`). -/
def State.topByte (s : State) : Byte :=
  s.mem.read (s.reg 7).toNat

theorem push_eq_pushed (s : State) (v : Byte) : s.push v = .ok (s.pushed v) := push_eq s v

theorem pop_eq_popped (s : State) : s.pop = .ok (s.topByte, s.popped) := pop_eq s

theorem effect_push (n : Reg) (s : State) : effect (.push n) s = (s.pushed (s.reg n)).advance .push := rfl

theorem effect_pop (n : Reg) (s : State) : effect (.pop n) s = (s.popped.setReg n s.topByte).advance .pop := rfl

theorem effect_call (n : Reg) (s : State) :
    effect (.call n) s = (s.pushed s.returnAddress).jump (s.reg n) := rfl

theorem effect_ret (s : State) : effect .ret s = s.popped.jump s.topByte := rfl

theorem pushPointer_eq_stackBase_sub_one (s : State) : s.pushPointer = s.stackBase - 1 := rfl

theorem stackBase_eq_of_ne_zero {s : State} (h : s.reg 7 ≠ 0) : s.stackBase = s.reg 7 := if_neg h

theorem stackBase_ne_zero (s : State) : s.stackBase ≠ 0 := by
  unfold State.stackBase
  split
  · decide
  · assumption

/-- Settles O41: the pointer is one below the base, which is 0xF4 or R7; a nonzero R7 borrows nothing. -/
theorem pushPointerIsLazilyInitialised : Obligations.PushPointerIsLazilyInitialised := by
  refine fun s => ⟨fun h => ?_, fun h => ?_⟩
  · have hbase : s.stackBase = 0xF4 := if_pos h
    rw [pushPointer_eq_stackBase_sub_one, hbase]
    rfl
  · have hpos : (s.reg 7).toNat ≠ 0 := fun h0 => h (BitVec.eq_of_toNat_eq h0)
    rw [pushPointer_eq_stackBase_sub_one, stackBase_eq_of_ne_zero h, byte_sub_one_toNat, if_neg hpos]

/-! ## What a push leaves -/

@[simp] theorem pushed_reg_sp (s : State) (v : Byte) : (s.pushed v).reg 7 = s.pushPointer :=
  reg_setReg_same s 7 s.pushPointer

theorem pushed_regsKept (s : State) (v : Byte) : RegsKept s (s.pushed v) [7] :=
  fun _ hr => reg_setReg_other s s.pushPointer (List.ne_of_not_mem_cons hr)

theorem pushed_cellsKept (s : State) (v : Byte) : CellsKept s (s.pushed v) [s.pushPointer.toNat] :=
  fun _ ha => read_write_other s.mem v (List.ne_of_not_mem_cons ha)

theorem pushed_mem_wf {s : State} (hwf : s.mem.wf) (v : Byte) : (s.pushed v).mem.wf :=
  write_wf hwf (byte_lt_memSize _) v

theorem pushed_read {s : State} (hwf : s.mem.wf) (v : Byte) : (s.pushed v).mem.read s.pushPointer.toNat = v :=
  read_write_same hwf _ v

/-- The byte pushed is the byte on top (R130). -/
theorem pushed_topByte {s : State} (hwf : s.mem.wf) (v : Byte) : (s.pushed v).topByte = v := by
  rw [State.topByte, pushed_reg_sp, pushed_read hwf]

/-! ## What a pop leaves -/

@[simp] theorem popped_mem (s : State) : s.popped.mem = s.mem := rfl

@[simp] theorem popped_reg_sp (s : State) : s.popped.reg 7 = s.reg 7 + 1 := reg_setReg_same s 7 _

theorem popped_reg_sp_toNat (s : State) : (s.popped.reg 7).toNat = ((s.reg 7).toNat + 1) % 256 := by
  rw [popped_reg_sp]
  exact BitVec.toNat_add _ _

theorem popped_regsKept (s : State) : RegsKept s s.popped [7] :=
  fun _ hr => reg_setReg_other s _ (List.ne_of_not_mem_cons hr)

/-- A pop of any state whose R7 is the push pointer of `s` moves R7 back to the base of `s`. -/
theorem popped_reg_sp_of_pushPointer {s t : State} (h : t.reg 7 = s.pushPointer) : t.popped.reg 7 = s.stackBase := by
  rw [popped_reg_sp, h]
  exact pushPointer_add_one s

theorem RegsKept.trans {s t u : State} {w : List Reg} (hst : RegsKept s t w) (htu : RegsKept t u w) : RegsKept s u w :=
  fun r hr => (htu r hr).trans (hst r hr)

/-! ## PUSH, POP, RET and the operation `pop` -/

/-- Settles O42: PUSH falls through from the state that a push of the register's value leaves. -/
theorem pushStoresBelowTheTop : Obligations.PushStoresBelowTheTop := fun n s =>
  ⟨_, exec_eq_effect _ s, fun hwf => pushed_read hwf _, pushed_reg_sp s (s.reg n), rfl,
    pushed_regsKept s (s.reg n), pushed_cellsKept s (s.reg n), rfl, rfl, rfl, rfl⟩

/-- Settles O43: a pop writes R7 alone. -/
theorem popReadsThenIncrements : Obligations.PopReadsThenIncrements := fun s =>
  ⟨s.popped, pop_eq_popped s, popped_reg_sp_toNat s, rfl, popped_regsKept s⟩

/-- Settles O44: the destination is written on top of what a pop leaves, and R7 is what the pop left unless it is the
destination. -/
theorem popWritesItsDestinationLast : Obligations.PopWritesItsDestinationLast := by
  refine fun n s => ⟨_, exec_eq_effect _ s, reg_setReg_same s.popped n _, fun hn => ?_, rfl, fun r hr => ?_,
    fun _ _ => rfl, rfl, rfl, rfl, rfl⟩
  · rw [effect_pop, reg_advance, reg_setReg_other _ _ hn.symm, popped_reg_sp_toNat]
  · obtain ⟨h7, hn⟩ : r ≠ 7 ∧ r ≠ n := by simpa using hr
    rw [effect_pop, reg_advance, reg_setReg_other _ _ hn, popped_regsKept s r (by simpa using h7)]

/-- Settles O46: RET jumps, with the byte on top, from the state that a pop leaves. -/
theorem retPopsIntoPc : Obligations.RetPopsIntoPc := fun s =>
  ⟨_, exec_eq_effect _ s, rfl, popped_reg_sp_toNat s, popped_regsKept s, fun _ _ => rfl, rfl, rfl, rfl, rfl⟩

/-! ## The two pairs -/

/-- Settles O47: the byte on top after PUSH is the value pushed, and POP moves R7 back to the base. -/
theorem pushThenPopCarriesTheValue : Obligations.PushThenPopCarriesTheValue := by
  intro n d s hwf hd
  have htop : (effect (.push n) s).topByte = s.reg n := pushed_topByte hwf (s.reg n)
  have hsp : (effect (.push n) s).popped.reg 7 = s.stackBase :=
    popped_reg_sp_of_pushPointer (pushed_reg_sp s (s.reg n))
  refine ⟨_, _, exec_eq_effect _ s, exec_eq_effect _ _, ?_, ?_, fun r hr => ?_,
    BitVec.add_assoc s.pc 2 2⟩
  · rw [effect_pop, reg_advance, reg_setReg_same, htop]
  · rw [effect_pop, reg_advance, reg_setReg_other _ _ hd.symm, hsp, State.stackBase]
  · obtain ⟨hrd, hr7⟩ : r ≠ d ∧ r ∉ [(7 : Reg)] := by simpa using hr
    rw [effect_pop, reg_advance, reg_setReg_other _ _ hrd, popped_regsKept _ r hr7, effect_push, reg_advance,
      pushed_regsKept s _ r hr7]

/-- Settles O48: the byte on top after CALL is the return address, and RET moves R7 back to the base. -/
theorem callThenRetReturns : Obligations.CallThenRetReturns := by
  intro n s hwf hpc
  have htop : (effect (.call n) s).topByte = s.returnAddress := pushed_topByte hwf s.returnAddress
  have hsp : (effect (.call n) s).popped.reg 7 = s.stackBase :=
    popped_reg_sp_of_pushPointer (pushed_reg_sp s s.returnAddress)
  have hregs : RegsKept s (effect (.call n) s) [7] := pushed_regsKept s s.returnAddress
  refine ⟨_, _, exec_eq_effect _ s, exec_eq_effect _ _, ?_, hsp, hregs.trans (popped_regsKept _)⟩
  rw [effect_ret, htop, jump_pc, zext9_toNat, returnAddress_toNat hpc]

/-! ## The stack as a sequence of bytes -/

theorem pushAll_cons (s : State) (v : Byte) (vs : List Byte) : s.pushAll (v :: vs) = (s.pushed v).pushAll vs := by
  rw [State.pushAll, push_eq_pushed]

theorem popAll_succ (s : State) {n : Nat} {vs : List Byte} {u : State} (h : s.popped.popAll n = .ok (vs, u)) :
    s.popAll (n + 1) = .ok (s.topByte :: vs, u) := by
  simp only [State.popAll, pop_eq_popped, h]

/-- One pop more takes one byte more, at the end: the pushes come off in the opposite order, so the first byte pushed is the
last popped. -/
theorem popAll_snoc {n : Nat} : ∀ {s u : State} {vs : List Byte}, s.popAll n = .ok (vs, u) →
    s.popAll (n + 1) = .ok (vs ++ [u.topByte], u.popped) := by
  induction n with
  | zero =>
    rintro s u vs h
    cases h
    exact popAll_succ s rfl
  | succ n ih =>
    intro s u vs h
    cases hpop : s.popped.popAll n with
    | error e => simp only [State.popAll, pop_eq_popped, hpop, reduceCtorEq] at h
    | ok p =>
      obtain ⟨ws, w⟩ := p
      cases (popAll_succ s hpop).symm.trans h
      exact popAll_succ s (ih hpop)

/-- Pushing `vs` from `s` gives `t`, popping as many from there gives them back in reverse and ends in `u`, at the depth of
`s`, with every other register and every cell off the pushed ones kept. -/
structure LifoRoundTrip (s : State) (vs : List Byte) (t u : State) : Prop where
  pushes : s.pushAll vs = .ok t
  depth : (t.reg 7).toNat = (s.reg 7).toNat - vs.length
  pops : t.popAll vs.length = .ok (vs.reverse, u)
  back : u.reg 7 = s.reg 7
  regs : RegsKept s u [7]
  cells : ∀ a, a < (s.reg 7).toNat - vs.length ∨ (s.reg 7).toNat ≤ a → u.mem.read a = s.mem.read a

theorem lifoRoundTrip_nil (s : State) : LifoRoundTrip s [] s s :=
  ⟨rfl, rfl, rfl, rfl, fun _ _ => rfl, fun _ _ => rfl⟩

/-- A push before a round trip and a pop after it make a round trip: the inner one keeps the cell of the pushed byte, which
stands at its own base. -/
theorem lifoRoundTrip_cons {s t u : State} {v : Byte} {vs : List Byte} (hwf : s.mem.wf) (hsp : s.reg 7 ≠ 0)
    (h : LifoRoundTrip (s.pushed v) vs t u) : LifoRoundTrip s (v :: vs) t u.popped := by
  have hptr : s.pushPointer.toNat = (s.reg 7).toNat - 1 := (pushPointerIsLazilyInitialised s).2 hsp
  have hpos : (s.reg 7).toNat ≠ 0 := fun h0 => hsp (BitVec.eq_of_toNat_eq h0)
  obtain ⟨hpush, hdepth, hpop, hback, hregs, hcells⟩ := h
  rw [pushed_reg_sp, hptr] at hdepth hcells
  have hkept : u.topByte = v := by
    rw [State.topByte, hback, pushed_reg_sp, hcells _ (.inr hptr.ge), pushed_read hwf]
  refine ⟨by rw [pushAll_cons, hpush], ?_, ?_, ?_, ((pushed_regsKept s v).trans hregs).trans (popped_regsKept u),
    fun a ha => ?_⟩
  · rw [hdepth, List.length_cons]
    omega
  · rw [List.length_cons, popAll_snoc hpop, hkept, List.reverse_cons]
  · rw [popped_reg_sp_of_pushPointer (hback.trans (pushed_reg_sp s v)), stackBase_eq_of_ne_zero hsp]
  · rw [List.length_cons] at ha
    have hother : a ∉ [s.pushPointer.toNat] := by
      rw [List.mem_singleton]
      omega
    rw [popped_mem, hcells a (by omega), pushed_cellsKept s v a hother]

/-- Below an R7 that leaves room for them, any bytes make the round trip. -/
theorem exists_lifoRoundTrip (vs : List Byte) : ∀ {s : State}, s.mem.wf → vs.length ≤ (s.reg 7).toNat →
    ∃ t u, LifoRoundTrip s vs t u := by
  induction vs with
  | nil => exact fun {s} _ _ => ⟨s, s, lifoRoundTrip_nil s⟩
  | cons v vs ih =>
    intro s hwf hlen
    rw [List.length_cons] at hlen
    have hsp : s.reg 7 ≠ 0 := fun h0 => by
      rw [h0] at hlen
      exact absurd hlen (Nat.not_succ_le_zero _)
    have hptr : s.pushPointer.toNat = (s.reg 7).toNat - 1 := (pushPointerIsLazilyInitialised s).2 hsp
    obtain ⟨t, u, h⟩ := ih (pushed_mem_wf hwf v) (by rw [pushed_reg_sp, hptr]; omega)
    exact ⟨t, u.popped, lifoRoundTrip_cons hwf hsp h⟩

/-- Of two writes of one register the second stands. -/
theorem setReg_setReg_same (s : State) (r : Reg) (v w : Byte) : (s.setReg r v).setReg r w = s.setReg r w := by
  simp only [State.setReg, Vector.set_set]

/-- The lazy initialisation made explicit: a push from `s` does what it does with the base of `s` put in R7 first (R133). -/
theorem pushed_setReg_stackBase (s : State) (v : Byte) : (s.setReg 7 s.stackBase).pushed v = s.pushed v := by
  have hreg : (s.setReg 7 s.stackBase).reg 7 = s.stackBase := reg_setReg_same s 7 _
  have hne : (s.setReg 7 s.stackBase).reg 7 ≠ 0 := hreg.trans_ne (stackBase_ne_zero s)
  have hptr : (s.setReg 7 s.stackBase).pushPointer = s.pushPointer := by
    rw [pushPointer_eq_stackBase_sub_one, stackBase_eq_of_ne_zero hne, hreg, pushPointer_eq_stackBase_sub_one]
  rw [State.pushed, hptr, setReg_setReg_same, setReg_mem, State.pushed]

/-- Settles O49: the first push initialises R7 to the base, so the round trip is one from the state with the base in R7. -/
theorem stackIsLastInFirstOut : Obligations.StackIsLastInFirstOut := by
  rintro s (_ | ⟨v, vs⟩) base hwf hbase hne hlen
  · exact absurd rfl hne
  · obtain rfl : base = s.stackBase := hbase
    have hreg : (s.setReg 7 s.stackBase).reg 7 = s.stackBase := reg_setReg_same s 7 _
    obtain ⟨t, u, hpush, hdepth, hpop, hback, hregs, hcells⟩ :=
      exists_lifoRoundTrip (s := s.setReg 7 s.stackBase) (v :: vs) hwf (hreg.symm ▸ hlen)
    rw [pushAll_cons, pushed_setReg_stackBase, ← pushAll_cons] at hpush
    rw [hreg] at hdepth hback hcells
    have hbaseKept : RegsKept s (s.setReg 7 s.stackBase) [7] :=
      fun _ hr => reg_setReg_other s _ (List.ne_of_not_mem_cons hr)
    exact ⟨t, u, hpush, hdepth, hpop, hback, hbaseKept.trans hregs, hcells⟩

end Sys2Proof.Machine

/-! PROOFS. The exceptions: how a running core stops, who raises the arithmetic error, and that the stop of a fault is
permanent (R145, R150 to R160). -/

namespace Sys2Proof.Machine

/-! ## The run state after an instruction -/

/-- HLT alone halts (R145). -/
theorem effect_status_eq_halted {i : Instr} {s : State} (hs : s.status ≠ .halted) :
    (effect i s).status = .halted ↔ i = .hlt := by
  cases i with
  | hlt => exact iff_of_true rfl rfl
  | div a b =>
    refine iff_of_false ?_ nofun
    by_cases hb : s.reg b = 0
    · rw [effect_div_zero hb]; exact nofun
    · rw [effect_div_nonzero hb]; exact hs
  | jeq n | jne n =>
    refine iff_of_false ?_ nofun
    simp only [effect]
    split <;> exact hs
  | _ => exact iff_of_false hs nofun

/-- A DIV by zero alone raises the arithmetic error (R152). -/
theorem effect_status_eq_faultArith {i : Instr} {s : State} (hs : s.status ≠ .faultArith) :
    (effect i s).status = .faultArith ↔ ∃ a b, i = .div a b ∧ s.reg b = 0 := by
  constructor
  · intro ht
    obtain h | h | ⟨a, b, hi, hb, -⟩ := effect_status_cases i s
    · exact absurd (h.symm.trans ht) hs
    · exact nomatch h.symm.trans ht
    · exact ⟨a, b, hi, hb⟩
  · rintro ⟨a, b, rfl, hb⟩
    rw [effect_div_zero hb]
    rfl

/-- No instruction raises a bounds or a decode error: those belong to the front end (R151, R153). -/
theorem effect_status_ne_frontEnd_fault {i : Instr} {s : State} (hr : s.status = .running) :
    (effect i s).status ≠ .faultBounds ∧ (effect i s).status ≠ .faultDecode := by
  obtain h | h | ⟨a, b, -, -, h⟩ := effect_status_cases i s <;> rw [h]
  · rw [hr]; exact ⟨nofun, nofun⟩
  · exact ⟨nofun, nofun⟩
  · exact ⟨nofun, nofun⟩

/-! ## The four stops of a tick -/

theorem decodeFault_status (s : State) (f : Fetched) (e : DecodeError) : (s.decodeFault f e).status = .faultDecode := by
  cases e <;> rfl

/-- The decoder at the spec's assignment refuses exactly the bytes that are not well-formed. -/
theorem not_wellFormed_iff (f : Fetched) : ¬ f.WellFormed opc ↔ ∀ i, decode f ≠ .ok i := by
  rw [← decodeAcceptsExactlyTheWellFormed opc opc_wellFormed f, not_exists]
  rfl

/-- Settles O13: of the three answers of the front end, each of its two faults stops the tick in its own way, and an
instruction stops it exactly as a DIV by zero or as HLT. -/
theorem tickStopsInExactlyFourWays : Obligations.TickStopsInExactlyFourWays := by
  intro s t hr _ h
  rw [not_wellFormed_iff]
  obtain ⟨i, hpc, hd, hf⟩ | ⟨e, hpc, hd, hf⟩ | ⟨a, hpc, -, hf⟩ := fetchInstr_cases s
  · obtain rfl := Host.Outcome.next.inj ((step_of_fetchInstr_ok hr hf).symm.trans h)
    obtain ⟨hbounds, hdecode⟩ := effect_status_ne_frontEnd_fault (i := i) hr
    rw [effect_status_eq_faultArith (by simp [hr]), effect_status_eq_halted (by simp [hr])]
    have hin : ¬ 254 ≤ s.pc.toNat := by omega
    simp [hbounds, hdecode, hd, hpc, hin]
  · obtain rfl := Host.Outcome.next.inj ((step_of_fetchInstr_error hr hf).symm.trans h)
    have hin : ¬ 254 ≤ s.pc.toNat := by omega
    simp [decodeFault_status, hd, hpc, hin]
  · obtain rfl := Host.Outcome.next.inj ((step_of_fetchInstr_error hr hf).symm.trans h)
    have hout : ¬ s.pc.toNat ≤ 253 := by omega
    simp [FatalError.status, hpc, hout]

/-! ## The arithmetic error, the permanent stop, and the halt -/

/-- Settles O16: a DIV by zero raises before its write, and no other instruction raises. -/
theorem arithmeticErrorIsDivByZero : Obligations.ArithmeticErrorIsDivByZero := by
  refine ⟨fun _ _ _ => exec_div_zero, fun i s t h ht hs => ?_⟩
  obtain rfl := exec_eq_next.mp h
  exact (effect_status_eq_faultArith hs).mp ht

theorem status_ne_running_of_goneWrong {s : State} (h : s.goneWrong = true) : s.status ≠ .running := fun hr => by
  simp [State.goneWrong, hr] at h

/-- Settles O15: a fault state is a stopped one, so a tick keeps it, and so does every run; reset is RUNNING. -/
theorem faultStopIsPermanent : Obligations.FaultStopIsPermanent :=
  fun _ h => ⟨run_of_step_self (step_stopped (status_ne_running_of_goneWrong h)), rfl⟩

/-- Settles O50: HLT has no operand, so it falls through by 1 from the halted state. -/
theorem hltHaltsPastItself : Obligations.HltHaltsPastItself := by
  intro s
  rw [exec_hlt, State.advance, operandCount_hlt]
  rfl

end Sys2Proof.Machine

/-! PROOFS. The register operand above 7, the precision of faults, who writes a register, the words of the spec, and reset
(R13, R26, R53, R75, R156, R157). -/

namespace Sys2Proof.Machine

/-! ## Faults of the tick -/

/-- In range, bytes that do not decode are the tick's decode error (R74, R75). -/
theorem step_of_decode_error {s : State} {e : DecodeError} (hr : s.status = .running) (hpc : s.pc.toNat ≤ 253)
    (hd : decode s.bytesAtPc = .error e) : step s = .next (s.raise (s.decodeFault s.bytesAtPc e)) :=
  step_of_fetchInstr_error hr (fetchInstr_of_decode_error hpc hd)

/-- Settles O12: the decoder names the operand, and the report of a decode error is that operand's address and byte. -/
theorem registerOperandAboveSevenFaults : Obligations.RegisterOperandAboveSevenFaults := by
  intro s m hr hpc hop
  obtain ⟨hdistinct, -, -⟩ := opc_wellFormed
  have hdec : DecodesTo opc s.bytesAtPc (decode s.bytesAtPc) := decodeWith_decodesTo opc s.bytesAtPc
  refine ⟨fun usesA ha => ?_, fun usesB ha hb => ?_⟩
  · exact step_of_decode_error hr hpc (hdec.eq_operandA hdistinct hop usesA ha)
  · exact step_of_decode_error hr hpc (hdec.eq_operandB hdistinct hop usesB ha hb)

/-- Settles O14: a fault of fetch or decode, and a DIV by zero, raise from the state of the tick's start; every other
instruction ends running or halted. -/
theorem faultingTickChangesNothingElse : Obligations.FaultingTickChangesNothingElse := by
  intro s t hr h hwrong
  obtain ⟨hstopped, -⟩ | ⟨-, e, -, rfl⟩ | ⟨-, i, -, hx⟩ := step_cases h
  · exact absurd hr hstopped
  · exact ⟨e, rfl⟩
  · obtain rfl := exec_eq_next.mp hx
    obtain hs | hs | ⟨a, b, -, -, he⟩ := effect_status_cases i s
    · exact absurd (hs.trans hr) (status_ne_running_of_goneWrong hwrong)
    · simp [State.goneWrong, hs] at hwrong
    · rw [he]
      exact ⟨_, rfl⟩

/-! ## Who writes a register -/

/-- The one register written is the only one that can differ. -/
theorem eq_of_reg_setReg_ne {s : State} {r q : Reg} {v : Byte} (h : (s.setReg q v).reg r ≠ s.reg r) : r = q :=
  by_contra fun hrq => h (reg_setReg_other s v hrq)

/-- Settles O24, by cases on the instruction: one write, POP's two, DIV's one unless it raises, or none. -/
theorem registersChangeOnlyAsTabled : Obligations.RegistersChangeOnlyAsTabled := by
  intro i s t r h hne
  obtain rfl := exec_eq_next.mp h
  cases i with
  | ldi | inc | dec | ld | add | sub | mul | and | push | call | ret => exact eq_of_reg_setReg_ne hne
  | div a b =>
    by_cases hb : s.reg b = 0
    · rw [effect_div_zero hb] at hne
      exact absurd rfl hne
    · rw [effect_div_nonzero hb] at hne
      exact ⟨eq_of_reg_setReg_ne hne, hb⟩
  | pop n =>
    refine or_iff_not_imp_right.mpr fun hrn => eq_of_reg_setReg_ne (s := s) (v := s.popPointer + 1) ?_
    rwa [← reg_setReg_other _ (s.mem.read s.popPointer.toNat) hrn]
  | jeq | jne =>
    simp only [effect] at hne
    split at hne <;> exact hne rfl
  | st | prn | pra | cmp | jmp | hlt => exact hne rfl

/-! ## The words of the spec, and reset -/

/-- Settles O6: the decoder evaluated on each word. -/
theorem wordsDecodeAsEncoded : Obligations.WordsDecodeAsEncoded := by
  unfold Obligations.WordsDecodeAsEncoded
  decide

/-- Settles O18: memory is empty, `pc` and FL are 0, and of a running state the record clause says nothing. -/
theorem resetHasInv : Obligations.ResetHasInv where
  mem := reset_mem_wf
  pc := Nat.zero_le _
  fl := .inl rfl
  record := trivial

/-- Every register is one of the eight copies of the reset value (R26, decision D8). -/
theorem reset_reg (r : Reg) : State.reset.reg r = 0 :=
  Vector.getElem_replicate r.isLt

/-- Settles O19: the registers hold copies of 0, and an empty memory reads 0 at every address. -/
theorem resetLeavesTheTabledValues : Obligations.ResetLeavesTheTabledValues :=
  ⟨reset_reg, rfl, rfl, rfl, read_nil, rfl, fun _ => rfl⟩

end Sys2Proof.Machine
